-- ==== Sys2Proof/Word.lean ====
section
/-! DEFINITION. The words of the machine: the bit widths of 00_scope.md R5, and the field cuts of R6 and R8. -/

namespace Sys2Proof

/-- A byte of memory or of a general register: `REG_BITS` = `TIMER_BITS` = 8. -/
abbrev Byte := BitVec 8

/-- An instruction word, a program counter, an index register or a stack cell:
`PC_BITS` = `I_BITS` = `STACK_ENTRY_BITS` = 16. -/
abbrev Word := BitVec 16

/-- The 12-bit operand `nnn`, and a physical address: `ADDR_BITS` = 12. -/
abbrev Addr := BitVec 12

/-- A 4-bit field of an instruction word. -/
abbrev Nibble := BitVec 4

/-- The name of a general register, `REG_COUNT` = 16 (10_state.md R10). -/
abbrev Reg := Fin 16

/-- The register that a 4-bit operand field names; every value is legal (30_encoding.md R73). -/
def Reg.ofField (f : Nibble) : Reg := ⟨f.toNat, f.isLt⟩

/-- The 4-bit operand field that names a register. -/
def Reg.field (r : Reg) : Nibble := BitVec.ofNat 4 r.val

/-- `{a, b}` for two bytes: the word with `a` in the high bits (00_scope.md R6). -/
def Word.ofBytes (hi lo : Byte) : Word := hi ++ lo

/-- `w[15:8]`. -/
def Word.hi (w : Word) : Byte := w.extractLsb' 8 8

/-- `w[7:0]`. -/
def Word.lo (w : Word) : Byte := w.extractLsb' 0 8

end Sys2Proof
end

