-- ==== Sys2Proof/WellFormed.lean ====
section
/-! DEFINITION. What is well formed. An operand's range is carried by its type (Sys2Proof/Syntax.lean), and 30_encoding.md R73
makes every value of every field legal, so a term of Instr cannot be ill formed. What can be is a word, which is well formed
when it selects a row of the opcode map (R66; the others are the reserved encodings of R68), and an image, which is well
formed when it fits (20_memory.md R47, 70_reset_and_hazards.md R183). Log entry 11. -/

namespace Sys2Proof

/-- A row of the opcode map: "a word `w` selects the row when `w & mask = match`" (30_encoding.md R66). -/
structure OpcodeRow where
  mnemonic : String
  mask : Word
  pattern : Word
  deriving DecidableEq, Repr

def OpcodeRow.selects (row : OpcodeRow) (w : Word) : Bool := w &&& row.mask == row.pattern

/-- The control flow and immediate rows, 1 to 9 of R66. -/
def opcodeTableFlow : List OpcodeRow :=
  [⟨"CLS", 0xFFFF#16, 0x00E0#16⟩,
   ⟨"RET", 0xFFFF#16, 0x00EE#16⟩,
   ⟨"JP_nnn", 0xF000#16, 0x1000#16⟩,
   ⟨"CALL_nnn", 0xF000#16, 0x2000#16⟩,
   ⟨"SE_Vx__kk", 0xF000#16, 0x3000#16⟩,
   ⟨"SNE_Vx__kk", 0xF000#16, 0x4000#16⟩,
   ⟨"SE_Vx__Vy", 0xF00F#16, 0x5000#16⟩,
   ⟨"LD_Vx__kk", 0xF000#16, 0x6000#16⟩,
   ⟨"ADD_Vx__kk", 0xF000#16, 0x7000#16⟩]

/-- The ALU rows, 10 to 18 of R66. -/
def opcodeTableAlu : List OpcodeRow :=
  [⟨"LD_Vx__Vy", 0xF00F#16, 0x8000#16⟩,
   ⟨"OR_Vx__Vy", 0xF00F#16, 0x8001#16⟩,
   ⟨"AND_Vx__Vy", 0xF00F#16, 0x8002#16⟩,
   ⟨"XOR_Vx__Vy", 0xF00F#16, 0x8003#16⟩,
   ⟨"ADD_Vx__Vy", 0xF00F#16, 0x8004#16⟩,
   ⟨"SUB_Vx__Vy", 0xF00F#16, 0x8005#16⟩,
   ⟨"SHR_Vx__Vy", 0xF00F#16, 0x8006#16⟩,
   ⟨"SUBN_Vx__Vy", 0xF00F#16, 0x8007#16⟩,
   ⟨"SHL_Vx__Vy", 0xF00F#16, 0x800E#16⟩]

/-- Rows 19 to 25 of R66. -/
def opcodeTableMixed : List OpcodeRow :=
  [⟨"SNE_Vx__Vy", 0xF00F#16, 0x9000#16⟩,
   ⟨"LD_I__nnn", 0xF000#16, 0xA000#16⟩,
   ⟨"JP_V0__nnn", 0xF000#16, 0xB000#16⟩,
   ⟨"RND_Vx__kk", 0xF000#16, 0xC000#16⟩,
   ⟨"DRW_Vx__Vy__n", 0xF000#16, 0xD000#16⟩,
   ⟨"SKP_Vx", 0xF0FF#16, 0xE09E#16⟩,
   ⟨"SKNP_Vx", 0xF0FF#16, 0xE0A1#16⟩]

/-- The rows of the F group, 26 to 34 of R66. -/
def opcodeTableF : List OpcodeRow :=
  [⟨"LD_Vx__DT", 0xF0FF#16, 0xF007#16⟩,
   ⟨"LD_Vx__K", 0xF0FF#16, 0xF00A#16⟩,
   ⟨"LD_DT__Vx", 0xF0FF#16, 0xF015#16⟩,
   ⟨"LD_ST__Vx", 0xF0FF#16, 0xF018#16⟩,
   ⟨"ADD_I__Vx", 0xF0FF#16, 0xF01E#16⟩,
   ⟨"LD_F__Vx", 0xF0FF#16, 0xF029#16⟩,
   ⟨"LD_B__Vx", 0xF0FF#16, 0xF033#16⟩,
   ⟨"LD__I___Vx", 0xF0FF#16, 0xF055#16⟩,
   ⟨"LD_Vx___I", 0xF0FF#16, 0xF065#16⟩]

/-- The opcode map of 30_encoding.md R66, all 34 rows. -/
def opcodeTable : List OpcodeRow :=
  opcodeTableFlow ++ opcodeTableAlu ++ opcodeTableMixed ++ opcodeTableF

/-- A word is well formed when it selects a row; the others are reserved (30_encoding.md R68). -/
def Word.wellFormed (w : Word) : Bool := opcodeTable.any (·.selects w)

/-- An image is well formed when it fits in the 3584 bytes from 0x200 up (20_memory.md R47). -/
def imageWellFormed (image : List Byte) : Bool := image.length + 0x200 ≤ 4096

end Sys2Proof
end

