-- ==== Sys2Proof/Decode.lean ====
section
/-! DEFINITION. The instruction decoder (30_encoding.md R60 to R70), total on any word and on any bytes, and after it the
encoder, written from the same three layouts (R61 to R63). -/

namespace Sys2Proof

/-- Why the decoder reads no instruction from a word. -/
inductive Reject where
  /-- The opcode nibble has no family (30_encoding.md R69). No word is rejected so, since all 16 nibbles have one. -/
  | decodeFault (w : Word)
  /-- A reserved encoding: a known nibble with an undefined selector (30_encoding.md R68). -/
  | unhandledOperand (w : Word)
  deriving DecidableEq, Repr

/-- Why the decoder reads no instruction from a list of bytes. -/
inductive BytesReject where
  /-- The first two bytes are a word that is rejected. -/
  | word (r : Reject)
  /-- Fewer than two bytes are there (30_encoding.md R60: every instruction is exactly 2 bytes). -/
  | truncated
  deriving DecidableEq, Repr

/-- `op = w[15:12]` (30_encoding.md R65). -/
def Word.op (w : Word) : Nibble := w.extractLsb' 12 4

/-- `nnn = w[11:0]`. -/
def Word.nnn (w : Word) : Addr := w.extractLsb' 0 12

/-- `x = w[11:8]`. -/
def Word.x (w : Word) : Reg := Reg.ofField (w.extractLsb' 8 4)

/-- `y = w[7:4]`. -/
def Word.y (w : Word) : Reg := Reg.ofField (w.extractLsb' 4 4)

/-- `n = w[3:0]`. -/
def Word.n (w : Word) : Nibble := w.extractLsb' 0 4

/-- `kk = w[7:0]`. -/
def Word.kk (w : Word) : Byte := w.extractLsb' 0 8

/-- The `0` group selects on the whole 12-bit operand (30_encoding.md R67). -/
def decodeZeroGroup (w : Word) : Except Reject Instr :=
  match w.nnn with
  | 0x0E0#12 => .ok .cls
  | 0x0EE#12 => .ok .ret
  | _ => .error (.unhandledOperand w)

/-- The `8` group selects on operand 3 (30_encoding.md R67). -/
def decodeAluGroup (w : Word) : Except Reject Instr :=
  match w.n with
  | 0x0#4 => .ok (.ldReg w.x w.y)
  | 0x1#4 => .ok (.orReg w.x w.y)
  | 0x2#4 => .ok (.andReg w.x w.y)
  | 0x3#4 => .ok (.xorReg w.x w.y)
  | 0x4#4 => .ok (.addReg w.x w.y)
  | 0x5#4 => .ok (.subReg w.x w.y)
  | 0x6#4 => .ok (.shrReg w.x w.y)
  | 0x7#4 => .ok (.subnReg w.x w.y)
  | 0xE#4 => .ok (.shlReg w.x w.y)
  | _ => .error (.unhandledOperand w)

/-- The key-skip group selects on the low byte (30_encoding.md R67). -/
def decodeKeyGroup (w : Word) : Except Reject Instr :=
  match w.kk with
  | 0x9E#8 => .ok (.skp w.x)
  | 0xA1#8 => .ok (.sknp w.x)
  | _ => .error (.unhandledOperand w)

/-- The `F` group selects on the low byte (30_encoding.md R67). -/
def decodeFGroup (w : Word) : Except Reject Instr :=
  match w.kk with
  | 0x07#8 => .ok (.ldVxDt w.x)
  | 0x0A#8 => .ok (.ldVxK w.x)
  | 0x15#8 => .ok (.ldDtVx w.x)
  | 0x18#8 => .ok (.ldStVx w.x)
  | 0x1E#8 => .ok (.addIVx w.x)
  | 0x29#8 => .ok (.ldFVx w.x)
  | 0x33#8 => .ok (.ldBVx w.x)
  | 0x55#8 => .ok (.storeRegs w.x)
  | 0x65#8 => .ok (.loadRegs w.x)
  | _ => .error (.unhandledOperand w)

/-- The two register skips require `n = 0` (30_encoding.md R67, R68). -/
def decodeRegSkip (i : Reg → Reg → Instr) (w : Word) : Except Reject Instr :=
  if w.n = 0#4 then .ok (i w.x w.y) else .error (.unhandledOperand w)

/-- The decoder (30_encoding.md R65): pure, and total on the 65536 words. -/
def decode (w : Word) : Except Reject Instr :=
  match w.op with
  | 0x0#4 => decodeZeroGroup w
  | 0x1#4 => .ok (.jp w.nnn)
  | 0x2#4 => .ok (.call w.nnn)
  | 0x3#4 => .ok (.seImm w.x w.kk)
  | 0x4#4 => .ok (.sneImm w.x w.kk)
  | 0x5#4 => decodeRegSkip .seReg w
  | 0x6#4 => .ok (.ldImm w.x w.kk)
  | 0x7#4 => .ok (.addImm w.x w.kk)
  | 0x8#4 => decodeAluGroup w
  | 0x9#4 => decodeRegSkip .sneReg w
  | 0xA#4 => .ok (.ldI w.nnn)
  | 0xB#4 => .ok (.jpV0 w.nnn)
  | 0xC#4 => .ok (.rnd w.x w.kk)
  | 0xD#4 => .ok (.drw w.x w.y w.n)
  | 0xE#4 => decodeKeyGroup w
  | 0xF#4 => decodeFGroup w
  | _ => .error (.decodeFault w)

/-- The decoder on the bytes of memory: an instruction is 2 bytes, the high byte at the lower address (30_encoding.md R60);
the bytes after it are given back. -/
def decodeBytes : List Byte → Except BytesReject (Instr × List Byte)
  | hi :: lo :: rest =>
    match decode (Word.ofBytes hi lo) with
    | .ok i => .ok (i, rest)
    | .error r => .error (.word r)
  | _ => .error .truncated

/-- Layout A: `{op, nnn}` (30_encoding.md R61). -/
def layoutA (op : Nibble) (nnn : Addr) : Word := op ++ nnn

/-- Layout B: `{op, x, kk}` (30_encoding.md R62). -/
def layoutB (op : Nibble) (x : Reg) (kk : Byte) : Word := (op ++ x.field ++ kk : BitVec (4 + 4 + 8))

/-- Layout C: `{op, x, y, n}` (30_encoding.md R63). -/
def layoutC (op : Nibble) (x y : Reg) (n : Nibble) : Word :=
  (op ++ x.field ++ y.field ++ n : BitVec (4 + 4 + 4 + 4))

/-- The word of an instruction (30_encoding.md R66). -/
def encode : Instr → Word
  | .cls => layoutA 0x0#4 0x0E0#12
  | .ret => layoutA 0x0#4 0x0EE#12
  | .jp nnn => layoutA 0x1#4 nnn
  | .call nnn => layoutA 0x2#4 nnn
  | .seImm x kk => layoutB 0x3#4 x kk
  | .sneImm x kk => layoutB 0x4#4 x kk
  | .seReg x y => layoutC 0x5#4 x y 0x0#4
  | .ldImm x kk => layoutB 0x6#4 x kk
  | .addImm x kk => layoutB 0x7#4 x kk
  | .ldReg x y => layoutC 0x8#4 x y 0x0#4
  | .orReg x y => layoutC 0x8#4 x y 0x1#4
  | .andReg x y => layoutC 0x8#4 x y 0x2#4
  | .xorReg x y => layoutC 0x8#4 x y 0x3#4
  | .addReg x y => layoutC 0x8#4 x y 0x4#4
  | .subReg x y => layoutC 0x8#4 x y 0x5#4
  | .shrReg x y => layoutC 0x8#4 x y 0x6#4
  | .subnReg x y => layoutC 0x8#4 x y 0x7#4
  | .shlReg x y => layoutC 0x8#4 x y 0xE#4
  | .sneReg x y => layoutC 0x9#4 x y 0x0#4
  | .ldI nnn => layoutA 0xA#4 nnn
  | .jpV0 nnn => layoutA 0xB#4 nnn
  | .rnd x kk => layoutB 0xC#4 x kk
  | .drw x y n => layoutC 0xD#4 x y n
  | .skp x => layoutB 0xE#4 x 0x9E#8
  | .sknp x => layoutB 0xE#4 x 0xA1#8
  | .ldVxDt x => layoutB 0xF#4 x 0x07#8
  | .ldVxK x => layoutB 0xF#4 x 0x0A#8
  | .ldDtVx x => layoutB 0xF#4 x 0x15#8
  | .ldStVx x => layoutB 0xF#4 x 0x18#8
  | .addIVx x => layoutB 0xF#4 x 0x1E#8
  | .ldFVx x => layoutB 0xF#4 x 0x29#8
  | .ldBVx x => layoutB 0xF#4 x 0x33#8
  | .storeRegs x => layoutB 0xF#4 x 0x55#8
  | .loadRegs x => layoutB 0xF#4 x 0x65#8

/-- The bytes of an instruction as memory holds them, high byte first (30_encoding.md R60). -/
def encodeBytes (i : Instr) : List Byte := [(encode i).hi, (encode i).lo]

/-- The instruction word that the table's number `w` of `nbits` bits stands for; the bits above `nbits` are 0. -/
def tableWord (nbits w : Nat) : Word := BitVec.ofNat 16 (w % 2 ^ nbits)

/-- The instruction that the decoder reads from the table's number `w`, laid out in memory's byte order. -/
def decodeTableWord (nbits w : Nat) : Option Instr :=
  match decodeBytes [(tableWord nbits w).hi, (tableWord nbits w).lo] with
  | .ok (i, _) => some i
  | .error _ => none

end Sys2Proof
end

