-- ==== Sys2Proof/Config.lean ====
section
/-! DEFINITION. The implementation parameters (00_scope.md R5), every row a field of one record, and the free values: what the
environment presents to the core, which the spec puts under no law (10_state.md R24, R25; 70_reset_and_hazards.md R187).
The parameters' values stand in Sys2Proof/Machine/Params.lean. Log entry 15. -/

namespace Sys2Proof

/-- `SHIFT_SOURCE`: the register that `8xy6` and `8xyE` shift (92_eei_decisions.md D6 and its alternative). -/
inductive ShiftSource where
  | vy
  | vx
  deriving DecidableEq, Repr

/-- `DRAW_RIGHT_EDGE`: what becomes of a pixel right of column 63 (92_eei_decisions.md D12 and its alternatives A and B). -/
inductive RightEdge where
  | clip
  | spillToNextRow
  | wrapInRow
  deriving DecidableEq, Repr

/-- `DRAW_BOTTOM_EDGE`: what becomes of a row below the grid (44_display.md R134; the spec names no alternative). -/
inductive BottomEdge where
  | terminate
  deriving DecidableEq, Repr

/-- `WAITKEY_CHOICE`: which of the held keys `Fx0A` takes (92_eei_decisions.md D15). -/
inductive WaitKeyChoice where
  | lowest
  deriving DecidableEq, Repr

/-- `RESET_VALUES`: what 92_eei_decisions.md D3 decides of the state after reset. -/
structure ResetValues where
  /-- Each general register. -/
  v : Byte
  i : Word
  sp : Fin 17
  /-- Each cell of the call stack. -/
  cell : Word
  /-- Each pixel of the framebuffer. -/
  pixel : Bool
  dt : Byte
  st : Byte
  /-- Each byte of memory outside the font. -/
  memory : Byte
  deriving DecidableEq, Repr

/-- The parameters of 00_scope.md R5, row by row. -/
structure Config where
  /-- `MEM_SIZE`. -/
  memSize : Nat
  /-- `ADDR_BITS`, the width of `Addr`. -/
  addrBits : Nat
  /-- `REG_COUNT`, the bound of `Reg`. -/
  regCount : Nat
  /-- `REG_BITS`, the width of a general register. -/
  regBits : Nat
  /-- `FLAG_REG`. -/
  flagReg : Reg
  /-- `PC_BITS`. -/
  pcBits : Nat
  /-- `I_BITS`. -/
  iBits : Nat
  /-- `PC_RESET`. -/
  pcReset : Word
  /-- `LOAD_BASE`. -/
  loadBase : Nat
  /-- `FONT_BASE`. -/
  fontBase : Nat
  /-- `FONT_GLYPHS`. -/
  fontGlyphs : Nat
  /-- `GLYPH_BYTES`. -/
  glyphBytes : Nat
  /-- `FONT_BYTES`, glyph after glyph. -/
  fontBytes : List Byte
  /-- `INSTR_BYTES`, as the amount the fetch phase adds to `pc`. -/
  instrBytes : Word
  /-- `FB_W`. -/
  fbW : Nat
  /-- `FB_H`. -/
  fbH : Nat
  /-- `FB_PIXELS`, the width of `Frame`. -/
  fbPixels : Nat
  /-- `STACK_ENTRY_BITS`. -/
  stackEntryBits : Nat
  /-- `STACK_DEPTH`. -/
  stackDepth : Nat
  /-- `TIMER_BITS`. -/
  timerBits : Nat
  /-- `TICK_HZ`: "timing only, no rule depends on it", so nothing here reads it. -/
  tickHz : Nat
  /-- `KEY_COUNT`. -/
  keyCount : Nat
  /-- `SHIFT_SOURCE`. -/
  shiftSource : ShiftSource
  /-- `LOGIC_WRITES_VF`. -/
  logicWritesVF : Bool
  /-- `LDST_INCREMENTS_I`. -/
  ldstIncrementsI : Bool
  /-- `DRAW_START_WRAP`. -/
  drawStartWrap : Bool
  /-- `DRAW_RIGHT_EDGE`. -/
  drawRightEdge : RightEdge
  /-- `DRAW_BOTTOM_EDGE`. -/
  drawBottomEdge : BottomEdge
  /-- `KEY_INDEX_MASK`: the bits of `Vx` that select a key. -/
  keyIndexMask : Byte
  /-- `WAITKEY_CHOICE`. -/
  waitKeyChoice : WaitKeyChoice
  /-- `FONT_INDEX_MASK`: the bits of `Vx` that `Fx29` multiplies. -/
  fontIndexMask : Byte
  /-- `RESET_VALUES`. -/
  resetValues : ResetValues
  deriving DecidableEq, Repr

/-- FREE VALUE: how many ticks arrive before the n-th step (70_reset_and_hazards.md R187: "No rule bounds the number of
steps between two ticks ... or the number of ticks between two steps"). Log entry 1. -/
opaque Config.freeTicks : Nat → Nat

/-- FREE VALUE: what `KEYS` holds at the n-th step (10_state.md R24: "a free input of each step (a draw), under no law").
Log entry 2. -/
opaque Config.freeKeys : Nat → BitVec 16

/-- FREE VALUE: what `RND` holds at the n-th step (10_state.md R25: "a free 8-bit input of each `Cxkk` step (a draw), under no
law"). Log entry 2. -/
opaque Config.freeRandom : Nat → Byte

end Sys2Proof
end

