-- ==== Sys2Proof/Machine/Params.lean ====
section
/-! DEFINITION. The values of the implementation parameters for this hardware (00_scope.md R5). -/

namespace Sys2Proof

/-- Glyphs 0 to 7 of the font (20_memory.md R45), top row first. -/
def fontLow : List Byte :=
  [0xF0, 0x90, 0x90, 0x90, 0xF0] ++ [0x20, 0x60, 0x20, 0x20, 0x70] ++
  [0xF0, 0x10, 0xF0, 0x80, 0xF0] ++ [0xF0, 0x10, 0xF0, 0x10, 0xF0] ++
  [0x90, 0x90, 0xF0, 0x10, 0x10] ++ [0xF0, 0x80, 0xF0, 0x10, 0xF0] ++
  [0xF0, 0x80, 0xF0, 0x90, 0xF0] ++ [0xF0, 0x10, 0x20, 0x40, 0x40]

/-- Glyphs 8 to F of the font (20_memory.md R45). -/
def fontHigh : List Byte :=
  [0xF0, 0x90, 0xF0, 0x90, 0xF0] ++ [0xF0, 0x90, 0xF0, 0x10, 0xF0] ++
  [0xF0, 0x90, 0xF0, 0x90, 0x90] ++ [0xE0, 0x90, 0xE0, 0x90, 0xE0] ++
  [0xF0, 0x80, 0x80, 0x80, 0xF0] ++ [0xE0, 0x90, 0x90, 0x90, 0xE0] ++
  [0xF0, 0x80, 0xF0, 0x80, 0xF0] ++ [0xF0, 0x80, 0xF0, 0x80, 0x80]

/-- The parameters of this hardware: the column "Value" of 00_scope.md R5. -/
def config : Config where
  memSize := 4096
  addrBits := 12
  regCount := 16
  regBits := 8
  flagReg := 15
  pcBits := 16
  iBits := 16
  pcReset := 0x0200
  loadBase := 0x200
  fontBase := 0x000
  fontGlyphs := 16
  glyphBytes := 5
  fontBytes := fontLow ++ fontHigh
  instrBytes := 2
  fbW := 64
  fbH := 32
  fbPixels := 2048
  stackEntryBits := 16
  stackDepth := 16
  timerBits := 8
  tickHz := 60
  keyCount := 16
  shiftSource := .vy
  logicWritesVF := true
  ldstIncrementsI := false
  drawStartWrap := true
  drawRightEdge := .clip
  drawBottomEdge := .terminate
  keyIndexMask := 0x0F
  waitKeyChoice := .lowest
  fontIndexMask := 0xFF
  resetValues := { v := 0, i := 0, sp := 0, cell := 0, pixel := false, dt := 0, st := 0, memory := 0x00 }

end Sys2Proof
end

