-- ==== Sys2Proof/Machine/State.lean ====
section
/-! DEFINITION. The state of the machine (10_state.md), the reasons to stop, and the state after reset (R32). -/

namespace Sys2Proof.Machine

/-- Memory as (address, byte) pairs, addresses strictly rising, no entry equal to what an unlisted address reads as
(`Memory.wf` in Sys2Proof/Machine/Ops.lean). -/
abbrev Memory := List Host.Cell

/-- The framebuffer `FB`: bit `i` is pixel `i` (10_state.md R23: "2048 independent bits"). Log entry 4. -/
abbrev Frame := BitVec 2048

/-- The faults that 60_exceptions.md R151 names. -/
inductive FaultKind where
  | decodeFault
  | unhandledOperand
  | stackUnderflow
  | stackOverflow
  | addressOutOfRange
  | imageLoadFailure
  deriving DecidableEq, Repr

/-- The code of a fault (60_exceptions.md R151). -/
def FaultKind.code : FaultKind → Nat
  | .decodeFault => 1
  | .unhandledOperand => 2
  | .stackUnderflow => 3
  | .stackOverflow => 4
  | .addressOutOfRange => 5
  | .imageLoadFailure => 6

/-- A diagnostic record `(code of F, addr, word)` (60_exceptions.md R152). -/
structure DiagRecord where
  kind : FaultKind
  addr : Word
  word : Word
  deriving DecidableEq, Repr

/-- What the environment presents around one step: the ticks that arrive before it, and the key state and the random byte
as the step samples them (10_state.md R24, R25, R26). -/
structure Input where
  ticks : Nat
  keys : BitVec 16
  rnd : Byte
  deriving DecidableEq, Repr

/-- The state tuple of 10_state.md, the sampled inputs, and the model's two own fields. -/
structure State where
  /-- `V[0..15]` (R10). -/
  regs : Vector Byte 16
  /-- `pc` (R15). -/
  pc : Word
  /-- `I` (R18). -/
  i : Word
  /-- `SP`, the number of valid stack entries, 0..16 (R19). -/
  sp : Fin 17
  /-- `STACK[0..15]` (R19). -/
  stack : Vector Word 16
  /-- `MEM[0..4095]` (R22). -/
  mem : Memory
  /-- `FB[0..2047]` (R23). -/
  fb : Frame
  /-- `DT` (R20). -/
  dt : Byte
  /-- `ST` (R20). -/
  st : Byte
  /-- `DIAG`, oldest record first (R28). -/
  diag : List DiagRecord
  /-- `KEYS` as sampled for the step in progress (R24): bit `k` is 1 while key `k` is held. -/
  keys : BitVec 16
  /-- `RND` as sampled for the step in progress (R25). -/
  rnd : Byte
  /-- The model's own: inputs already fixed for the coming steps, next first. Where it is empty, inputs are free values. -/
  inputs : List Input
  /-- The model's own: how many inputs have been taken; the argument of the free values. -/
  draws : Nat
  deriving DecidableEq, Repr

/-- The state right after reset (10_state.md R32). Memory with nothing listed reads as its reset content. The fields `keys`,
`rnd`, `inputs` and `draws` are no state of the spec's: log entry 3. -/
def State.reset : State where
  regs := Vector.replicate 16 config.resetValues.v
  pc := config.pcReset
  i := config.resetValues.i
  sp := config.resetValues.sp
  stack := Vector.replicate 16 config.resetValues.cell
  mem := []
  fb := if config.resetValues.pixel then BitVec.allOnes 2048 else 0
  dt := config.resetValues.dt
  st := config.resetValues.st
  diag := []
  keys := 0
  rnd := 0
  inputs := []
  draws := 0

/-- Why the machine stops. -/
inductive Fault where
  /-- `ImageLoadFailure` with its cause `ImageTooLarge` (60_exceptions.md R158), raised by the host port `loadImage` and by
  nothing else; no step raises it. Safe: the spec gives a machine whose load failed no run at all. -/
  | imageTooLarge
  deriving DecidableEq, Repr

/-- Why an instruction has no meaning. -/
inductive Refusal where
  /-- An instruction that is not modelled, by its mnemonic. No arm of `exec` raises it: every instruction has its meaning.
  Safe: nothing is claimed of a refused step. -/
  | notModelled (mnemonic : String)
  deriving DecidableEq, Repr

end Sys2Proof.Machine
end

