-- ==== Sys2Proof/Machine/Ops.lean ====
section
/-! DEFINITION. The named operations over registers, memory, the call stack, the timers and the diagnostic output, and
raising a fault. -/

namespace Sys2Proof.Machine

/-! ### General registers (10_state.md R10) -/

/-- `V[r]`. -/
def State.v (s : State) (r : Reg) : Byte := s.regs[r.val]'r.isLt

/-- `V[r] <- b`. -/
def State.setV (s : State) (r : Reg) (b : Byte) : State := { s with regs := s.regs.set r.val b r.isLt }

/-! ### Memory (20_memory.md R40 to R48) -/

/-- What a byte reads as that nothing has written: the glyph table (20_memory.md R45), and elsewhere the reset value of memory
(R46). -/
def unlisted (a : Nat) : Byte :=
  if config.fontBase ≤ a ∧ a < config.fontBase + config.fontGlyphs * config.glyphBytes then
    config.fontBytes.getD (a - config.fontBase) config.resetValues.memory
  else config.resetValues.memory

/-- The entry of a physical address. -/
def Memory.lookup : Memory → Nat → Option Byte
  | [], _ => none
  | (k, b) :: m, a => if k = a then some b else Memory.lookup m a

/-- Puts an entry in its place among strictly rising addresses. -/
def Memory.put : Memory → Nat → Byte → Memory
  | [], a, b => [(a, b)]
  | (k, c) :: m, a, b =>
    if a < k then (a, b) :: (k, c) :: m
    else if a = k then (a, b) :: m
    else (k, c) :: Memory.put m a b

/-- Takes every entry of an address out. -/
def Memory.drop : Memory → Nat → Memory
  | [], _ => []
  | (k, c) :: m, a => if k = a then Memory.drop m a else (k, c) :: Memory.drop m a

/-- The address decoder: every address is reduced modulo 4096 (20_memory.md R41). -/
def physical (a : Nat) : Nat := a % config.memSize

/-- `MemRead(a, 1)` (20_memory.md R42). -/
def Memory.read (m : Memory) (a : Nat) : Byte := (m.lookup (physical a)).getD (unlisted (physical a))

/-- `MemRead(a, 2)`: the byte at the lower address is the high byte (20_memory.md R42, R48). -/
def Memory.read16 (m : Memory) (a : Nat) : Word := Word.ofBytes (m.read a) (m.read (a + 1))

/-- `MemWrite(a, 1, b)` (20_memory.md R43), in canonical form: a byte as at reset is not listed. -/
def Memory.write (m : Memory) (a : Nat) (b : Byte) : Memory :=
  if b = unlisted (physical a) then m.drop (physical a) else m.put (physical a) b

/-- `MemWrite(a, 2, w)` (20_memory.md R43). -/
def Memory.write16 (m : Memory) (a : Nat) (w : Word) : Memory := (m.write a w.hi).write (a + 1) w.lo

/-- Single bytes to ascending addresses from `a` on (20_memory.md R47, R50). -/
def Memory.writeList (m : Memory) (a : Nat) : List Byte → Memory
  | [] => m
  | b :: bs => Memory.writeList (m.write a b) (a + 1) bs

/-- Every entry lies above `lo`, below the memory's end, in rising order, and differs from what an unlisted address reads as. -/
def Memory.wfFrom (lo : Nat) : Memory → Bool
  | [] => true
  | (k, b) :: m => decide (lo ≤ k) && decide (k < config.memSize) && decide (b ≠ unlisted k) && Memory.wfFrom (k + 1) m

/-- The canonical form of memory. -/
def Memory.wf (m : Memory) : Bool := m.wfFrom 0

/-! ### The call stack (10_state.md R19) -/

/-- `Push(a)`: none when all `STACK_DEPTH` cells are in use. -/
def State.push (s : State) (a : Word) : Option State :=
  if h : s.sp.val < config.stackDepth then
    some { s with stack := s.stack.set s.sp.val a h, sp := ⟨s.sp.val + 1, Nat.succ_lt_succ h⟩ }
  else none

/-- `Pop()`: "pop on empty stack returns 'empty,' never a stale value". The vacated cell keeps its content: log entry 6. -/
def State.pop (s : State) : Option (Word × State) :=
  if h : 0 < s.sp.val then
    some (s.stack[s.sp.val - 1]'(by omega), { s with sp := ⟨s.sp.val - 1, by omega⟩ })
  else none

/-! ### The program counter (10_state.md R15, R16; all arithmetic modulo 2^16) -/

/-- The fetch phase's `pc <- pc + 2`, and a skip's further 2. -/
def State.advancePc (s : State) : State := { s with pc := s.pc + config.instrBytes }

/-- `pc <- pc - 2`, back to the instruction in progress (45_keypad_timers.md R142). -/
def State.backPc (s : State) : State := { s with pc := s.pc - config.instrBytes }

/-- "Skip" means skipping exactly one instruction (40_flow.md R87). -/
def State.skipIf (s : State) (c : Bool) : State := if c then s.advancePc else s

/-! ### Faults (60_exceptions.md R150 to R161) -/

/-- `raise F(addr, word)`: appends one record, with `addr` the address the faulting instruction was fetched from, `pc - 2` at
the time of the raise, and has no other effect (60_exceptions.md R150, R152). It is this machine's whole exception entry: nothing is saved, no mode changes
and control goes nowhere (R160); and since there is no handler, there is no return from a fault (R161). -/
def raiseFault (kind : FaultKind) (word : Word) (s : State) : State :=
  { s with diag := s.diag ++ [⟨kind, s.pc - config.instrBytes, word⟩] }

/-- The fault of a word that the decoder rejects (60_exceptions.md R155, R156). -/
def rejectFault : Reject → FaultKind
  | .decodeFault _ => .decodeFault
  | .unhandledOperand _ => .unhandledOperand

/-! ### The Timer Subsystem (60_exceptions.md R164 to R166) -/

/-- One decrement, never below 0. -/
def countDown (t : Byte) : Byte := if t = 0 then 0 else t - 1

/-- `Tick()`: both timers in one transition (60_exceptions.md R165). -/
def tick (s : State) : State := { s with dt := countDown s.dt, st := countDown s.st }

/-- A timer after `k` ticks: `max(t - k, 0)` (60_exceptions.md R166). A timer at 0 is settled without a look at `k`. -/
def countDownBy (k : Nat) (t : Byte) : Byte := if t = 0 then 0 else BitVec.ofNat 8 (t.toNat - k)

/-- `k` ticks, one after another. -/
def ticks (k : Nat) (s : State) : State := { s with dt := countDownBy k s.dt, st := countDownBy k s.st }

/-! ### The inputs (10_state.md R24 to R26) -/

/-- The input of the next step: the head of the queue, and free values when the queue is empty. Log entries 1 and 2. -/
def nextInput (s : State) : Input :=
  match s.inputs with
  | p :: _ => p
  | [] => ⟨Config.freeTicks s.draws, Config.freeKeys s.draws, Config.freeRandom s.draws⟩

/-- `KEYS` and `RND` as sampled now. -/
def State.present (s : State) (keys : BitVec 16) (rnd : Byte) : State := { s with keys := keys, rnd := rnd }

/-- Takes the next input: its ticks pass, its key state and random byte are presented, and the queue moves on. -/
def takeInput (s : State) : State :=
  let p := nextInput s
  { (ticks p.ticks s).present p.keys p.rnd with inputs := s.inputs.tail, draws := s.draws + 1 }

/-! ### Fetch (70_reset_and_hazards.md R185) -/

/-- `w <- MemRead(pc, 2)`. -/
def fetchWord (s : State) : Word := s.mem.read16 s.pc.toNat

/-- A word where the next fetch reads it. -/
def placeWord (s : State) (w : Word) : State := { s with mem := s.mem.write16 s.pc.toNat w }

/-! ### Reset and the image-load port -/

/-- The `reset` event: the whole state as 10_state.md R32 gives it (70_reset_and_hazards.md R180). The environment is no part
of the core and is not reset, so the model's own fields go on: log entry 12. -/
def resetEvent (s : State) : State := { State.reset with inputs := s.inputs, draws := s.draws }

/-- `LoadImage(bytes)` (20_memory.md R47): fails with `ImageTooLarge` when the image does not fit, and the machine then has no
run; otherwise the bytes go to 0x200 and up. -/
def loadImage (image : List Byte) (s : State) : Host.Outcome State Fault Refusal :=
  if image.length + config.loadBase > config.memSize then .fault .imageTooLarge
  else .next { s with mem := s.mem.writeList config.loadBase image }

end Sys2Proof.Machine
end

