-- ==== Sys2Proof/Machine/Flags.lean ====
section
/-! DEFINITION. The flag computations (10_state.md R12, R13) and the write order of a result and its flag. -/

namespace Sys2Proof.Machine

/-- A flag value as `VF` holds it: exactly 0x00 or 0x01 (42_alu.md R100). -/
def flagByte (b : Bool) : Byte := if b then 1 else 0

/-- The carry out `s[8]` of the 9-bit sum (42_alu.md R105). -/
def carryOut (a b : Byte) : Bool := 255 < a.toNat + b.toNat

/-- 1 means NO borrow: `a >= b` for `a - b` (42_alu.md R106). -/
def noBorrow (a b : Byte) : Bool := b.toNat ≤ a.toNat

/-- The bit that a right shift takes out (42_alu.md R107). -/
def shiftedOutRight (b : Byte) : Bool := b.getLsbD 0

/-- The bit that a left shift takes out (42_alu.md R109). -/
def shiftedOutLeft (b : Byte) : Bool := b.getLsbD 7

/-- The numeric result goes to `V[x]`, then the flag to `V[15]`: "the flag write must be the final effect" (10_state.md R13). -/
def State.setResultFlag (s : State) (x : Reg) (r : Byte) (f : Bool) : State :=
  (s.setV x r).setV config.flagReg (flagByte f)

/-- The result of a logic operation: the indicator is 0, "no carry" (42_alu.md R102, `LOGIC_WRITES_VF`). -/
def State.setLogic (s : State) (x : Reg) (r : Byte) : State :=
  if config.logicWritesVF then s.setResultFlag x r false else s.setV x r

end Sys2Proof.Machine
end

