-- ==== Sys2Proof/Machine/Operands.lean ====
section
/-! DEFINITION. The operand forms: shift source, effective addresses, register ranges, decimal digits, key selection and
sprite coordinates. -/

namespace Sys2Proof.Machine

/-- The register that a shift reads (42_alu.md R107, `SHIFT_SOURCE`). -/
def shiftOperand (s : State) (x y : Reg) : Byte :=
  match config.shiftSource with
  | .vy => s.v y
  | .vx => s.v x

/-- The one addressing mode for data: `I + k` (43_index_memory.md R120); memory reduces it. -/
def State.effAddr (s : State) (k : Nat) : Nat := s.i.toNat + k

/-- A 12-bit address operand, zero-extended (30_encoding.md R73). -/
def addrWord (nnn : Addr) : Word := nnn.zeroExtend 16

/-- The address of the glyph of a register value: the value times 5 (43_index_memory.md R123, `FONT_INDEX_MASK`: none). -/
def glyphAddr (v : Byte) : Word := BitVec.ofNat 16 (config.fontBase + (v &&& config.fontIndexMask).toNat * config.glyphBytes)

/-- Hundreds, tens and ones of a register value, each a whole byte (43_index_memory.md R124). -/
def bcdDigits (v : Byte) : List Byte :=
  [BitVec.ofNat 8 (v.toNat / 100), BitVec.ofNat 8 (v.toNat / 10 % 10), BitVec.ofNat 8 (v.toNat % 10)]

/-- The values of `V0` to `Vx`, ascending (43_index_memory.md R125). -/
def State.regBlock (s : State) (x : Reg) : List Byte := s.regs.toList.take (x.val + 1)

/-- `V[i] <- MemRead(I + i, 1)` for the first `n` registers, ascending (43_index_memory.md R126). -/
def State.loadBlock (s : State) : (n : Nat) → n ≤ 16 → State
  | 0, _ => s
  | n + 1, h => (State.loadBlock s n (by omega)).setV ⟨n, h⟩ (s.mem.read (s.effAddr n))

/-- `I` after a block transfer of `V0` to `Vx` (43_index_memory.md R120, `LDST_INCREMENTS_I`: unchanged). -/
def State.blockIndex (s : State) (x : Reg) : Word :=
  if config.ldstIncrementsI then s.i + BitVec.ofNat 16 (x.val + 1) else s.i

/-- Whether the key that a register value selects is held: key `V[x][3:0]` (45_keypad_timers.md R147, `KEY_INDEX_MASK`). -/
def State.keyHeld (s : State) (v : Byte) : Bool := s.keys.getLsbD (v &&& config.keyIndexMask).toNat

/-- The held key that the key wait takes, the lowest-numbered one (45_keypad_timers.md R142, `WAITKEY_CHOICE`); none when no
key is held. -/
def State.firstHeldKey (s : State) : Option Nat :=
  match config.waitKeyChoice with
  | .lowest => (List.range config.keyCount).find? fun k => s.keys.getLsbD k

/-- The column a sprite starts at: `V[x] mod 64` (44_display.md R134, `DRAW_START_WRAP`). -/
def startColumn (v : Byte) : Nat := if config.drawStartWrap then v.toNat % config.fbW else v.toNat

/-- The row a sprite starts at: `V[y] mod 32` (44_display.md R134, `DRAW_START_WRAP`). -/
def startRow (v : Byte) : Nat := if config.drawStartWrap then v.toNat % config.fbH else v.toNat

end Sys2Proof.Machine
end

