-- ==== Sys2Proof/Machine/Alu.lean ====
section
/-! DEFINITION. The register-to-register ALU group (42_alu.md). Both operands are read before any write, and the flag is
written last (10_state.md R13). -/

namespace Sys2Proof.Machine

/-- `8xy0 LD Vx, Vy` (42_alu.md R101): `VF` is not written as a flag. -/
def execLdReg (x y : Reg) (s : State) : Host.Outcome State Fault Refusal :=
  .next (s.setV x (s.v y))

/-- `8xy1 OR Vx, Vy` (42_alu.md R102). -/
def execOr (x y : Reg) (s : State) : Host.Outcome State Fault Refusal :=
  .next (s.setLogic x (s.v x ||| s.v y))

/-- `8xy2 AND Vx, Vy` (42_alu.md R103). -/
def execAnd (x y : Reg) (s : State) : Host.Outcome State Fault Refusal :=
  .next (s.setLogic x (s.v x &&& s.v y))

/-- `8xy3 XOR Vx, Vy` (42_alu.md R104). -/
def execXor (x y : Reg) (s : State) : Host.Outcome State Fault Refusal :=
  .next (s.setLogic x (s.v x ^^^ s.v y))

/-- `8xy4 ADD Vx, Vy` (42_alu.md R105). -/
def execAddReg (x y : Reg) (s : State) : Host.Outcome State Fault Refusal :=
  .next (s.setResultFlag x (s.v x + s.v y) (carryOut (s.v x) (s.v y)))

/-- `8xy5 SUB Vx, Vy` (42_alu.md R106). -/
def execSub (x y : Reg) (s : State) : Host.Outcome State Fault Refusal :=
  .next (s.setResultFlag x (s.v x - s.v y) (noBorrow (s.v x) (s.v y)))

/-- `8xy6 SHR Vx, Vy` (42_alu.md R107): a logical shift by one. -/
def execShr (x y : Reg) (s : State) : Host.Outcome State Fault Refusal :=
  .next (s.setResultFlag x (shiftOperand s x y >>> 1) (shiftedOutRight (shiftOperand s x y)))

/-- `8xy7 SUBN Vx, Vy` (42_alu.md R108). -/
def execSubn (x y : Reg) (s : State) : Host.Outcome State Fault Refusal :=
  .next (s.setResultFlag x (s.v y - s.v x) (noBorrow (s.v y) (s.v x)))

/-- `8xyE SHL Vx, Vy` (42_alu.md R109). -/
def execShl (x y : Reg) (s : State) : Host.Outcome State Fault Refusal :=
  .next (s.setResultFlag x (shiftOperand s x y <<< 1) (shiftedOutLeft (shiftOperand s x y)))

end Sys2Proof.Machine
end

