-- ==== Sys2Proof/Machine/Display.lean ====
section
/-! DEFINITION. The framebuffer controller and the display instructions (44_display.md). -/

namespace Sys2Proof.Machine

/-- `FB[i]` (44_display.md R130). -/
def Frame.pixel (f : Frame) (i : Nat) : Bool := f.getLsbD i

/-- The index of pixel `(x, y)`: `y*64 + x` (10_state.md R23). -/
def pixelIndex (x y : Nat) : Nat := y * config.fbW + x

/-- `TogglePixel(i, b)`: XORs one pixel and answers whether a set pixel was erased (44_display.md R131). -/
def togglePixel (f : Frame) (i : Nat) (b : Bool) : Frame × Bool :=
  (f ^^^ (BitVec.ofBool b).zeroExtend 2048 <<< i, f.pixel i && b)

/-- `Clear()` (44_display.md R137). -/
def clearFrame : Frame := 0

/-- `Render()`: column, row and value of all pixels in row-major order (44_display.md R133). -/
def render (f : Frame) : List (Nat × Nat × Bool) :=
  (List.range config.fbPixels).map fun i => (i % config.fbW, i / config.fbW, f.pixel i)

/-- The framebuffer read port (10_state.md R27). -/
def pixelAt (s : State) (x y : Nat) : Bool := s.fb.pixel (pixelIndex x y)

/-- Where the pixel of column `x0 + col` in row `y` is drawn, if at all: pixels right of column 63 are clipped
(44_display.md R134, `DRAW_RIGHT_EDGE`). -/
def drawIndex (x0 y col : Nat) : Option Nat :=
  if x0 + col < config.fbW then some (pixelIndex (x0 + col) y)
  else match config.drawRightEdge with
    | .clip => none
    | .spillToNextRow => if pixelIndex (x0 + col) y < config.fbPixels then some (pixelIndex (x0 + col) y) else none
    | .wrapInRow => some (pixelIndex ((x0 + col) % config.fbW) y)

/-- One column of a sprite row: bit 7 is the leftmost pixel (44_display.md R134). The pair is the framebuffer and `erased`. -/
def drawColumn (x0 y : Nat) (byte : Byte) (p : Frame × Bool) (col : Nat) : Frame × Bool :=
  match drawIndex x0 y col with
  | some i => ((togglePixel p.1 i (byte.getLsbD (7 - col))).1, p.2 || (togglePixel p.1 i (byte.getLsbD (7 - col))).2)
  | none => p

/-- The eight columns of a sprite row, ascending. -/
def drawRow (x0 y : Nat) (byte : Byte) (p : Frame × Bool) : Frame × Bool :=
  [0, 1, 2, 3, 4, 5, 6, 7].foldl (drawColumn x0 y byte) p

/-- `left` rows from row `row` of a sprite on; the first row beyond the grid ends the whole draw (44_display.md R134,
`DRAW_BOTTOM_EDGE`). `rowByte` reads the byte of a row. -/
def drawRows (rowByte : Nat → Byte) (x0 y0 : Nat) : (left row : Nat) → Frame × Bool → Frame × Bool
  | 0, _, p => p
  | left + 1, row, p =>
    if pixelIndex x0 (y0 + row) ≥ config.fbPixels then
      match config.drawBottomEdge with
      | .terminate => p
    else drawRows rowByte x0 y0 left (row + 1) (drawRow x0 (y0 + row) (rowByte row) p)

/-- The sprite of `n` rows at `I`, drawn at the coordinates in `V[x]` and `V[y]`: the framebuffer after it, and whether a
pixel was erased. -/
def drawSprite (s : State) (x y : Reg) (n : Nibble) : Frame × Bool :=
  drawRows (fun row => s.mem.read (s.effAddr row)) (startColumn (s.v x)) (startRow (s.v y)) n.toNat 0 (s.fb, false)

/-- `00E0 CLS` (44_display.md R132). -/
def execCls (s : State) : Host.Outcome State Fault Refusal :=
  .next { s with fb := clearFrame }

/-- `Dxyn DRW Vx, Vy, n` (44_display.md R134): `VF` is always written, last. -/
def execDrw (x y : Reg) (n : Nibble) (s : State) : Host.Outcome State Fault Refusal :=
  .next ({ s with fb := (drawSprite s x y n).1 }.setV config.flagReg (flagByte (drawSprite s x y n).2))

end Sys2Proof.Machine
end

