-- ==== Sys2Proof/Machine/Flow.lean ====
section
/-! DEFINITION. Control flow (40_flow.md). In every meaning `pc` is the address of the instruction plus 2. -/

namespace Sys2Proof.Machine

/-- `00EE RET` (40_flow.md R80): an empty stack raises `StackUnderflow` and the return is skipped. -/
def execRet (s : State) : Host.Outcome State Fault Refusal :=
  match s.pop with
  | some (a, t) => .next { t with pc := a }
  | none => .next (raiseFault .stackUnderflow (encode .ret) s)

/-- `1nnn JP nnn` (40_flow.md R81). -/
def execJp (nnn : Addr) (s : State) : Host.Outcome State Fault Refusal :=
  .next { s with pc := addrWord nnn }

/-- `2nnn CALL nnn` (40_flow.md R82): a full stack raises `StackOverflow` and the call is skipped. -/
def execCall (nnn : Addr) (s : State) : Host.Outcome State Fault Refusal :=
  match s.push s.pc with
  | some t => .next { t with pc := addrWord nnn }
  | none => .next (raiseFault .stackOverflow (encode (.call nnn)) s)

/-- `3xkk SE Vx, kk` (40_flow.md R83). -/
def execSeImm (x : Reg) (kk : Byte) (s : State) : Host.Outcome State Fault Refusal :=
  .next (s.skipIf (s.v x == kk))

/-- `4xkk SNE Vx, kk` (40_flow.md R84). -/
def execSneImm (x : Reg) (kk : Byte) (s : State) : Host.Outcome State Fault Refusal :=
  .next (s.skipIf (s.v x != kk))

/-- `5xy0 SE Vx, Vy` (40_flow.md R85). -/
def execSeReg (x y : Reg) (s : State) : Host.Outcome State Fault Refusal :=
  .next (s.skipIf (s.v x == s.v y))

/-- `9xy0 SNE Vx, Vy` (40_flow.md R86). -/
def execSneReg (x y : Reg) (s : State) : Host.Outcome State Fault Refusal :=
  .next (s.skipIf (s.v x != s.v y))

/-- `Bnnn JP V0, nnn` (40_flow.md R88). -/
def execJpV0 (nnn : Addr) (s : State) : Host.Outcome State Fault Refusal :=
  .next { s with pc := (s.v 0).zeroExtend 16 + addrWord nnn }

end Sys2Proof.Machine
end

