-- ==== Sys2Proof/Machine/Immediate.lean ====
section
/-! DEFINITION. Register and immediate (41_immediate.md). Each writes `V[x]` and nothing else (R90). -/

namespace Sys2Proof.Machine

/-- `6xkk LD Vx, kk` (41_immediate.md R91). -/
def execLdImm (x : Reg) (kk : Byte) (s : State) : Host.Outcome State Fault Refusal :=
  .next (s.setV x kk)

/-- `7xkk ADD Vx, kk` (41_immediate.md R92): the carry out is discarded. -/
def execAddImm (x : Reg) (kk : Byte) (s : State) : Host.Outcome State Fault Refusal :=
  .next (s.setV x (s.v x + kk))

/-- `Cxkk RND Vx, kk` (41_immediate.md R93): the random byte is the sampled input. -/
def execRnd (x : Reg) (kk : Byte) (s : State) : Host.Outcome State Fault Refusal :=
  .next (s.setV x (s.rnd &&& kk))

end Sys2Proof.Machine
end

