-- ==== Sys2Proof/Machine/IndexMemory.lean ====
section
/-! DEFINITION. Index register and memory transfer (43_index_memory.md). -/

namespace Sys2Proof.Machine

/-- `Annn LD I, nnn` (43_index_memory.md R121). -/
def execLdI (nnn : Addr) (s : State) : Host.Outcome State Fault Refusal :=
  .next { s with i := addrWord nnn }

/-- `Fx1E ADD I, Vx` (43_index_memory.md R122): modulo 2^16, no flag. -/
def execAddI (x : Reg) (s : State) : Host.Outcome State Fault Refusal :=
  .next { s with i := s.i + (s.v x).zeroExtend 16 }

/-- `Fx29 LD F, Vx` (43_index_memory.md R123). -/
def execLdF (x : Reg) (s : State) : Host.Outcome State Fault Refusal :=
  .next { s with i := glyphAddr (s.v x) }

/-- `Fx33 LD B, Vx` (43_index_memory.md R124): the digits go to `I`, `I + 1`, `I + 2`. -/
def execLdB (x : Reg) (s : State) : Host.Outcome State Fault Refusal :=
  .next { s with mem := s.mem.writeList (s.effAddr 0) (bcdDigits (s.v x)) }

/-- `Fx55 LD [I], Vx` (43_index_memory.md R125). -/
def execStoreRegs (x : Reg) (s : State) : Host.Outcome State Fault Refusal :=
  .next { s with mem := s.mem.writeList (s.effAddr 0) (s.regBlock x), i := s.blockIndex x }

/-- `Fx65 LD Vx, [I]` (43_index_memory.md R126). -/
def execLoadRegs (x : Reg) (s : State) : Host.Outcome State Fault Refusal :=
  .next { s.loadBlock (x.val + 1) x.isLt with i := s.blockIndex x }

end Sys2Proof.Machine
end

