-- ==== Sys2Proof/Machine/KeypadTimers.lean ====
section
/-! DEFINITION. Keypad and timer instructions (45_keypad_timers.md). The key state is the input sampled for this step. -/

namespace Sys2Proof.Machine

/-- `Ex9E SKP Vx` (45_keypad_timers.md R140). -/
def execSkp (x : Reg) (s : State) : Host.Outcome State Fault Refusal :=
  .next (s.skipIf (s.keyHeld (s.v x)))

/-- `ExA1 SKNP Vx` (45_keypad_timers.md R141). -/
def execSknp (x : Reg) (s : State) : Host.Outcome State Fault Refusal :=
  .next (s.skipIf (!s.keyHeld (s.v x)))

/-- `Fx0A LD Vx, K` (45_keypad_timers.md R142): with no key held, `pc` goes back to this instruction and nothing else changes. -/
def execLdVxK (x : Reg) (s : State) : Host.Outcome State Fault Refusal :=
  .next (match s.firstHeldKey with
    | some k => s.setV x (BitVec.ofNat 8 k)
    | none => s.backPc)

/-- `Fx07 LD Vx, DT` (45_keypad_timers.md R143). -/
def execLdVxDt (x : Reg) (s : State) : Host.Outcome State Fault Refusal :=
  .next (s.setV x s.dt)

/-- `Fx15 LD DT, Vx` (45_keypad_timers.md R144). -/
def execLdDtVx (x : Reg) (s : State) : Host.Outcome State Fault Refusal :=
  .next { s with dt := s.v x }

/-- `Fx18 LD ST, Vx` (45_keypad_timers.md R145). -/
def execLdStVx (x : Reg) (s : State) : Host.Outcome State Fault Refusal :=
  .next { s with st := s.v x }

end Sys2Proof.Machine
end

