-- ==== Sys2Proof/Machine/Step.lean ====
section
/-! DEFINITION. The step: fetch, decode, execute (70_reset_and_hazards.md R185), with the inputs and ticks around it, and a
word placed where the next step fetches. -/

namespace Sys2Proof.Machine

/-- `Step()` of 70_reset_and_hazards.md R185, with `KEYS` and `RND` as the state presents them. -/
def cycle (s : State) : Host.Outcome State Fault Refusal :=
  match decode (fetchWord s) with
  | .ok i => exec i s.advancePc
  | .error r => .next (raiseFault (rejectFault r) (fetchWord s) s.advancePc)

/-- One step of the machine: the input of this step is taken (its ticks pass, `KEYS` and `RND` are sampled), then one `Step()`. -/
def step (s : State) : Host.Outcome State Fault Refusal := cycle (takeInput s)

/-- The state with the table's word `w` stored where `step` fetches its next instruction: at `pc`, high byte first. -/
def State.withFetchWord (s : State) (nbits w : Nat) : State := placeWord s (tableWord nbits w)

end Sys2Proof.Machine
end

