-- ==== Sys2Proof/Machine/Events.lean ====
section
/-! DEFINITION. The four transitions of the whole machine as events (70_reset_and_hazards.md R184), and histories of them:
steps and ticks in any interleaving (R187). -/

namespace Sys2Proof.Machine

/-- An event that drives the core (10_state.md R26). A step event carries the key state and the random byte that the step
samples, each free (R24, R25). -/
inductive Event where
  | step (keys : BitVec 16) (rnd : Byte)
  | tick
  | reset
  | loadImage (image : List Byte)
  deriving DecidableEq, Repr

/-- What an event does to the state (70_reset_and_hazards.md R184). -/
def transition (e : Event) (s : State) : Host.Outcome State Fault Refusal :=
  match e with
  | .step keys rnd => cycle (s.present keys rnd)
  | .tick => .next (tick s)
  | .reset => .next (resetEvent s)
  | .loadImage image => loadImage image s

/-- A history of events (70_reset_and_hazards.md R187); it ends at the first stop. -/
def runEvents : List Event → State → Host.Outcome State Fault Refusal
  | [], s => .next s
  | e :: es, s =>
    match transition e s with
    | .next t => runEvents es t
    | .fault f => .fault f
    | .refused r => .refused r

end Sys2Proof.Machine
end

