-- ==== Sys2Proof/Safety.lean ====
section
/-! DEFINITION. The terms in which claims are made: the parts of the state and which of them may change, the invariant of
the machine, runs without a fault, and idle states. -/

namespace Sys2Proof.Machine

/-- A part of the state, as small as a claim needs it: one register, one stack cell, one byte, one pixel. -/
inductive Part where
  | reg (r : Reg)
  | pc
  | i
  | sp
  | cell (k : Fin 16)
  | byte (a : Addr)
  | pixel (p : Fin 2048)
  | dt
  | st
  | diag
  /-- The sampled inputs `KEYS` and `RND`. -/
  | ports
  /-- The model's own queue of inputs and its count. -/
  | env
  deriving DecidableEq, Repr

/-- A part is the same in both states. A byte is compared through the read of one byte, a pixel through the pixel read. -/
def Same (s t : State) : Part → Prop
  | .reg r => t.v r = s.v r
  | .pc => t.pc = s.pc
  | .i => t.i = s.i
  | .sp => t.sp = s.sp
  | .cell k => t.stack[k.val]'k.isLt = s.stack[k.val]'k.isLt
  | .byte a => t.mem.read a.toNat = s.mem.read a.toNat
  | .pixel p => t.fb.pixel p.val = s.fb.pixel p.val
  | .dt => t.dt = s.dt
  | .st => t.st = s.st
  | .diag => t.diag = s.diag
  | .ports => t.keys = s.keys ∧ t.rnd = s.rnd
  | .env => t.inputs = s.inputs ∧ t.draws = s.draws

/-- The frame: every part but those that `may` admits is the same. -/
def OnlyChanges (may : Part → Prop) (s t : State) : Prop := ∀ p, ¬ may p → Same s t p

/-- A transition ends in a next state, of which `P` holds. -/
def Ends (o : Host.Outcome State Fault Refusal) (P : State → Prop) : Prop := ∃ t, o = .next t ∧ P t

/-- The physical address of `I + k` (20_memory.md R41, 43_index_memory.md R120). -/
def State.dataAddr (s : State) (k : Nat) : Addr := BitVec.ofNat 12 (s.effAddr k)

/-- What a diagnostic record can say: it is one of the three faults a step can raise, and names a word of that fault
(60_exceptions.md R151, R159). -/
def RecordOk (r : DiagRecord) : Prop :=
  match r.kind with
  | .unhandledOperand => decode r.word = .error (.unhandledOperand r.word)
  | .stackUnderflow => r.word = 0x00EE
  | .stackOverflow => ∃ nnn, decode r.word = .ok (.call nnn)
  | .decodeFault => False
  | .addressOutOfRange => False
  | .imageLoadFailure => False

/-- The invariant of the machine: memory is in its canonical form, with every address below 4096, and every record of `DIAG`
is one a step can raise. -/
def Inv (s : State) : Prop := s.mem.wf = true ∧ ∀ r ∈ s.diag, RecordOk r

/-- "The run raised no fault" is "`DIAG` is empty at the end" (60_exceptions.md R152). -/
def NoFaultRaised (s : State) : Prop := s.diag = []

/-- A safe run: the history ends in a state, and no fault was raised on the way. -/
def SafeRun (es : List Event) (s : State) : Prop := Ends (runEvents es s) NoFaultRaised

/-- A state that some history reaches from reset. -/
def Reachable (t : State) : Prop := ∃ es, runEvents es State.reset = .next t

/-- The word at `pc` is `1nnn` with `nnn = pc mod 4096` and `pc <= 0x0FFF` (70_reset_and_hazards.md R191). -/
def Idle (s : State) : Prop := s.pc.toNat ≤ 0x0FFF ∧ decode (fetchWord s) = .ok (.jp (s.pc.setWidth 12))

/-- The instructions that write the flag register as a flag (10_state.md R12). -/
def writesFlag : Instr → Bool
  | .orReg _ _ | .andReg _ _ | .xorReg _ _ | .addReg _ _ | .subReg _ _ | .subnReg _ _ | .shrReg _ _ | .shlReg _ _
  | .drw _ _ _ => true
  | .cls | .ret | .jp _ | .call _ | .seImm _ _ | .sneImm _ _ | .seReg _ _ | .ldImm _ _ | .addImm _ _ | .ldReg _ _
  | .sneReg _ _ | .ldI _ | .jpV0 _ | .rnd _ _ | .skp _ | .sknp _ | .ldVxDt _ | .ldVxK _ | .ldDtVx _ | .ldStVx _
  | .addIVx _ | .ldFVx _ | .ldBVx _ | .storeRegs _ | .loadRegs _ => false

/-- Whether a register is a destination of an instruction: its `x`, or one of `V0` to `Vx` for `Fx65`. -/
def destination : Instr → Reg → Bool
  | .ldImm x _, r | .addImm x _, r | .ldReg x _, r | .orReg x _, r | .andReg x _, r | .xorReg x _, r | .addReg x _, r
  | .subReg x _, r | .subnReg x _, r | .shrReg x _, r | .shlReg x _, r | .rnd x _, r | .ldVxDt x, r | .ldVxK x, r => r == x
  | .loadRegs x, r => r.val ≤ x.val
  | .cls, _ | .ret, _ | .jp _, _ | .call _, _ | .seImm _ _, _ | .sneImm _ _, _ | .seReg _ _, _ | .sneReg _ _, _
  | .ldI _, _ | .jpV0 _, _ | .drw _ _ _, _ | .skp _, _ | .sknp _, _ | .ldDtVx _, _ | .ldStVx _, _ | .addIVx _, _
  | .ldFVx _, _ | .ldBVx _, _ | .storeRegs _, _ => false

/-- The instructions that change `pc` in the execute phase (10_state.md R16). -/
def movesPc : Instr → Bool
  | .ret | .jp _ | .call _ | .jpV0 _ | .seImm _ _ | .sneImm _ _ | .seReg _ _ | .sneReg _ _ | .skp _ | .sknp _
  | .ldVxK _ => true
  | .cls | .ldImm _ _ | .addImm _ _ | .ldReg _ _ | .orReg _ _ | .andReg _ _ | .xorReg _ _ | .addReg _ _ | .subReg _ _
  | .subnReg _ _ | .shrReg _ _ | .shlReg _ _ | .ldI _ | .rnd _ _ | .drw _ _ _ | .ldVxDt _ | .ldDtVx _ | .ldStVx _
  | .addIVx _ | .ldFVx _ | .ldBVx _ | .storeRegs _ | .loadRegs _ => false

/-- Whether the sprite of `DRW Vx, Vy, n` in state `s` has a 1 bit on pixel `(px, py)` of the grid: row `r` is the byte at
`I + r`, column `c` its bit `7 - c`, and the sprite starts at `(V[x] mod 64, V[y] mod 32)` (44_display.md R134). -/
def spriteBit (s : State) (x y : Reg) (n : Nibble) (px py : Nat) : Bool :=
  let x0 := (s.v x).toNat % 64
  let y0 := (s.v y).toNat % 32
  decide (x0 ≤ px) && decide (px < x0 + 8) && decide (y0 ≤ py) && decide (py < y0 + n.toNat) &&
    (s.mem.read (s.effAddr (py - y0))).getLsbD (7 - (px - x0))

end Sys2Proof.Machine
end

