-- ==== Sys2Proof/Certificates/Slice0/Obligations.lean ====
section
/-! DEFINITION. The statements for the provers. Words used: `Ends o P` says that a transition answers a next state of which
`P` holds; `OnlyChanges may s t` is the frame, every part of the state but those that `may` admits is the same; `exec` is the
execute phase, so `s.pc` is the address of the instruction plus 2 (40_flow.md). `VF` is register 15. -/

open Sys2Proof Sys2Proof.Machine

/-! ## Encoding -/

/-- Decoding the word of an instruction gives the instruction back, with every operand at every value. Every term of `Instr` is
well formed (30_encoding.md R73: every value legal), so this is over all of them. -/
def Obligations.DecodeEncode : Prop := ∀ i : Instr, decode (encode i) = .ok i

/-- An instruction has one word: whatever decodes to it is its word. -/
def Obligations.EncodeDecode : Prop := ∀ (w : Word) (i : Instr), decode w = .ok i → encode i = w

/-- 30_encoding.md R66, R65: a word that decodes selects exactly one row of the opcode map, the row of its instruction; a word
that is rejected selects none. -/
def Obligations.DecodeFollowsTable : Prop :=
  ∀ w : Word, (opcodeTable.filter (·.selects w)).map (·.mnemonic) =
    match decode w with
    | .ok i => [i.mnemonic]
    | .error _ => []

/-- 30_encoding.md R69 (the spec marks it derived, from R64): no word has an unrecognized opcode nibble, so every rejected word
is a reserved encoding, reported as `UnhandledOperand`. -/
def Obligations.RejectedIsReserved : Prop :=
  ∀ (w : Word) (r : Reject), decode w = .error r → r = .unhandledOperand w

/-- 30_encoding.md R60: an instruction is exactly two bytes, the high byte first; the bytes after it are left. -/
def Obligations.BytesBigEndian : Prop :=
  ∀ (i : Instr) (rest : List Byte), decodeBytes (encodeBytes i ++ rest) = .ok (i, rest) ∧
    (encodeBytes i).map BitVec.toNat = [(encode i).toNat / 256, (encode i).toNat % 256]

/-- Words written out from 30_encoding.md R66 (and, of the reserved ones, R68). -/
def Obligations.SampleWords : Prop :=
  decodeTableWord 16 0x00E0 = some .cls ∧ decodeTableWord 16 0x00EE = some .ret ∧
  decodeTableWord 16 0x6005 = some (.ldImm 0 5) ∧ decodeTableWord 16 0x7003 = some (.addImm 0 3) ∧
  decodeTableWord 16 0xA20A = some (.ldI 0x20A) ∧ decodeTableWord 16 0x8126 = some (.shrReg 1 2) ∧
  decodeTableWord 16 0xD125 = some (.drw 1 2 5) ∧ decodeTableWord 16 0xE19E = some (.skp 1) ∧
  decodeTableWord 16 0xF265 = some (.loadRegs 2) ∧ decodeTableWord 16 0x5121 = none ∧
  decodeTableWord 16 0x8008 = none ∧ decodeTableWord 16 0x0000 = none

/-! ## The step -/

/-- 70_reset_and_hazards.md R185: a step fetches the two bytes at `pc` and advances `pc` by 2; a word that decodes has its operation
performed, with `KEYS` and `RND` as sampled now; a reserved word raises `UnhandledOperand`, code 2, at its own address, with no other
effect (30_encoding.md R68). -/
def Obligations.StepEventRunsWord : Prop :=
  ∀ (s : State) (keys : BitVec 16) (rnd : Byte),
    (∀ i, decode (Word.ofBytes (s.mem.read s.pc.toNat) (s.mem.read (s.pc.toNat + 1))) = .ok i →
      transition (.step keys rnd) s = exec i { s with pc := s.pc + 2, keys := keys, rnd := rnd }) ∧
    (∀ r, decode (Word.ofBytes (s.mem.read s.pc.toNat) (s.mem.read (s.pc.toNat + 1))) = .error r →
      Ends (transition (.step keys rnd) s) fun t =>
        t.pc = s.pc + 2 ∧ t.keys = keys ∧ t.rnd = rnd ∧
        (∃ d, t.diag = s.diag ++ [d] ∧ d.kind.code = 2 ∧ d.addr = s.pc ∧
          d.word = Word.ofBytes (s.mem.read s.pc.toNat) (s.mem.read (s.pc.toNat + 1))) ∧
        OnlyChanges (fun p => p = .pc ∨ p = .diag ∨ p = .ports) s t)

/-- The model's `step` runs the decoded instruction too. Around `exec` it advances `pc` by 2, lets the ticks of this step's input
pass, presents that input's key state and random byte, and moves the queue of inputs on (the model's choice: log entries 1, 2). -/
def Obligations.StepRunsDecoded : Prop :=
  ∀ (s : State) (i : Instr),
    decode (Word.ofBytes (s.mem.read s.pc.toNat) (s.mem.read (s.pc.toNat + 1))) = .ok i →
    step s = exec i { s with
      pc := s.pc + 2
      dt := BitVec.ofNat 8 (s.dt.toNat - (nextInput s).ticks)
      st := BitVec.ofNat 8 (s.st.toNat - (nextInput s).ticks)
      keys := (nextInput s).keys
      rnd := (nextInput s).rnd
      inputs := s.inputs.tail
      draws := s.draws + 1 }

/-- 70_reset_and_hazards.md R187: the model's `step` is one of the legal histories, so many ticks and then one step; only the
model's own queue of inputs is handled besides (log entry 1). -/
def Obligations.StepIsHistory : Prop :=
  ∀ s : State, ∃ t, step s = .next t ∧ ∃ u,
    runEvents (List.replicate (nextInput s).ticks .tick ++ [.step (nextInput s).keys (nextInput s).rnd]) s = .next u ∧
    t = { u with inputs := s.inputs.tail, draws := s.draws + 1 }

/-- 60_exceptions.md R150: every fault of a step is non-fatal, so every step, from any state, ends in a next state. -/
def Obligations.StepAlwaysGoesOn : Prop := ∀ s : State, ∃ t, step s = .next t

/-- 60_exceptions.md R150: whenever a step adds to `DIAG`, its whole effect is that `pc` is advanced by 2 and that one record is
appended. (That the record has a code of 2, 3 or 4 and names the address and the word of the faulting instruction is the spec's
decision D18, R151 and R152.) -/
def Obligations.FaultHasNoOtherEffect : Prop :=
  ∀ (s t : State) (keys : BitVec 16) (rnd : Byte),
    transition (.step keys rnd) s = .next t → t.diag ≠ s.diag →
      t.pc = s.pc + 2 ∧
      (∃ d, t.diag = s.diag ++ [d] ∧ (d.kind.code = 2 ∨ d.kind.code = 3 ∨ d.kind.code = 4) ∧
        d.addr = s.pc ∧ d.word = s.mem.read16 s.pc.toNat) ∧
      OnlyChanges (fun p => p = .pc ∨ p = .diag ∨ p = .ports) s t

/-- 10_state.md R28, and R159 of 60_exceptions.md (which the spec marks derived): `DIAG` is append-only, and a step appends at
most one record. -/
def Obligations.DiagAppendOnly : Prop :=
  ∀ s t : State, step s = .next t → ∃ new : List DiagRecord, t.diag = s.diag ++ new ∧ new.length ≤ 1

/-- 60_exceptions.md R152: records are never removed (only reset empties `DIAG`): over any history without a reset event, steps with
any inputs, ticks and image loads in any order, the records at the start are still there at the end, in their order. -/
def Obligations.FaultsStayVisible : Prop :=
  ∀ (es : List Event) (s t : State), .reset ∉ es → runEvents es s = .next t → ∃ new, t.diag = s.diag ++ new

/-- The word that `withFetchWord` places is the one the next fetch reads, at every `pc`, also across 0xFFF; no other byte changes. -/
def Obligations.PlacedWordIsFetched : Prop :=
  ∀ (s : State) (w : Word), fetchWord (s.withFetchWord 16 w.toNat) = w ∧
    OnlyChanges (fun p => ∃ a : Addr, (a.toNat = s.pc.toNat % 4096 ∨ a.toNat = (s.pc.toNat + 1) % 4096) ∧ p = .byte a) s
      (s.withFetchWord 16 w.toNat)

/-! ## Reset and the invariant -/

/-- The glyph table of 20_memory.md R45, digit after digit, top row first. -/
def Claims.glyphTable : List Byte :=
  [0xF0, 0x90, 0x90, 0x90, 0xF0] ++ [0x20, 0x60, 0x20, 0x20, 0x70] ++ [0xF0, 0x10, 0xF0, 0x80, 0xF0] ++
  [0xF0, 0x10, 0xF0, 0x10, 0xF0] ++ [0x90, 0x90, 0xF0, 0x10, 0x10] ++ [0xF0, 0x80, 0xF0, 0x10, 0xF0] ++
  [0xF0, 0x80, 0xF0, 0x90, 0xF0] ++ [0xF0, 0x10, 0x20, 0x40, 0x40] ++ [0xF0, 0x90, 0xF0, 0x90, 0xF0] ++
  [0xF0, 0x90, 0xF0, 0x10, 0xF0] ++ [0xF0, 0x90, 0xF0, 0x90, 0x90] ++ [0xE0, 0x90, 0xE0, 0x90, 0xE0] ++
  [0xF0, 0x80, 0x80, 0x80, 0xF0] ++ [0xE0, 0x90, 0x90, 0x90, 0xE0] ++ [0xF0, 0x80, 0xF0, 0x80, 0xF0] ++
  [0xF0, 0x80, 0xF0, 0x80, 0x80]

/-- 10_state.md R32, 20_memory.md R45, R46: what the state is after reset, at power-up and after a `reset` event in any state. (The
values other than `pc` and the placing of the glyphs are the spec's decisions D3, D18; the glyphs themselves general knowledge.
That the sampled inputs `KEYS` and `RND` are 0 too is the model's choice, since the spec gives them no reset value: log entry 3.) -/
def Obligations.ResetValues : Prop :=
  ∀ s : State, Ends (transition .reset s) fun t =>
    (∀ p, p ≠ .env → Same State.reset t p) ∧
    (∀ r, t.v r = 0) ∧ t.pc = 0x0200 ∧ t.i = 0 ∧ t.sp = 0 ∧ (∀ k : Fin 16, t.stack[k.val]'k.isLt = 0) ∧
    (List.range 80).map t.mem.read = Claims.glyphTable ∧ (∀ a, 0x050 ≤ a → a < 4096 → t.mem.read a = 0) ∧
    (∀ p : Fin 2048, t.fb.pixel p.val = false) ∧ t.dt = 0 ∧ t.st = 0 ∧ t.diag = []

/-- The invariant holds at reset. (The canonical form of memory in it is the model's own: log entry 7.) -/
def Obligations.ResetInv : Prop := Inv State.reset

/-- Every step keeps the invariant, from every state that has it: memory stays in canonical form, with all addresses below
4096, and every record of `DIAG` is one that 60_exceptions.md R151 admits. (The canonical form is the model's own: log entry 7.) -/
def Obligations.StepKeepsInv : Prop := ∀ s t : State, Inv s → step s = .next t → Inv t

/-- Every event keeps the invariant: steps with any inputs, ticks, reset and loading an image. (The canonical form of memory in
it is the model's own: log entry 7.) -/
def Obligations.EventsKeepInv : Prop :=
  ∀ (e : Event) (s t : State), Inv s → transition e s = .next t → Inv t

/-- The invariant holds of every state that any history of events, image loads among them, reaches from reset. (The canonical
form of memory in it is the model's own: log entry 7.) -/
def Obligations.ReachableInv : Prop := ∀ t : State, Reachable t → Inv t

/-! ## Rules about all instructions -/

/-- 10_state.md R12: an instruction writes a register only when it is its destination, or when it is `VF` and the instruction is
one of the nine that write the flag. -/
def Obligations.RegisterWriters : Prop :=
  ∀ (i : Instr) (s t : State) (r : Reg), exec i s = .next t →
    destination i r = false → (r = 15 → writesFlag i = false) → t.v r = s.v r

/-- 20_memory.md R51 and 10_state.md R23: memory is written only by `Fx33` and `Fx55`, and the framebuffer only by `00E0` and
`Dxyn`. -/
def Obligations.StoreWriters : Prop :=
  ∀ (i : Instr) (s t : State), exec i s = .next t →
    ((∀ x, i ≠ .ldBVx x ∧ i ≠ .storeRegs x) → ∀ a : Nat, t.mem.read a = s.mem.read a) ∧
    ((i ≠ .cls ∧ ∀ x y n, i ≠ .drw x y n) → ∀ p : Nat, t.fb.pixel p = s.fb.pixel p)

/-- 10_state.md R19: no instruction other than `2nnn` and `00EE` writes the call stack or `SP`; and 60_exceptions.md R151: among
the instructions only those two raise a fault. -/
def Obligations.StackWriters : Prop :=
  ∀ (i : Instr) (s t : State), exec i s = .next t → i ≠ .ret → (∀ a, i ≠ .call a) →
    t.sp = s.sp ∧ t.stack = s.stack ∧ t.diag = s.diag

/-- 10_state.md R30, the column "Written by": `I` is written only by `Annn`, `Fx1E`, `Fx29`; `DT` by `Fx15`; `ST` by `Fx18`
(besides the ticks). -/
def Obligations.IndexTimerWriters : Prop :=
  ∀ (i : Instr) (s t : State), exec i s = .next t →
    ((∀ a, i ≠ .ldI a) → (∀ x, i ≠ .addIVx x ∧ i ≠ .ldFVx x) → t.i = s.i) ∧
    ((∀ x, i ≠ .ldDtVx x) → t.dt = s.dt) ∧ ((∀ x, i ≠ .ldStVx x) → t.st = s.st)

/-- 10_state.md R16: an instruction that is no skip, jump, call, return or key wait leaves `pc` at the instruction's address plus
2; and a skip leaves it there or 2 further. -/
def Obligations.PcMovers : Prop :=
  ∀ (i : Instr) (s t : State), exec i s = .next t →
    (movesPc i = false → t.pc = s.pc) ∧
    ((∃ x kk, i = .seImm x kk ∨ i = .sneImm x kk) ∨ (∃ x y, i = .seReg x y ∨ i = .sneReg x y) ∨
      (∃ x, i = .skp x ∨ i = .sknp x) → t.pc = s.pc ∨ t.pc = s.pc + 2)

/-- 10_state.md R24, R25: `KEYS` matters to `Ex9E`, `ExA1` and `Fx0A` only, and `RND` to `Cxkk` only: any other instruction does
the same whatever the input holds. -/
def Obligations.InputReaders : Prop :=
  ∀ (i : Instr) (s t : State), exec i s = .next t →
    ((∀ x, i ≠ .skp x ∧ i ≠ .sknp x ∧ i ≠ .ldVxK x) →
      ∀ k, exec i { s with keys := k } = .next { t with keys := k }) ∧
    ((∀ x kk, i ≠ .rnd x kk) → ∀ b, exec i { s with rnd := b } = .next { t with rnd := b })

/-- 60_exceptions.md R162: the program learns of a tick only by reading `DT`: an instruction other than `Fx07` does the same
whatever the timers hold. -/
def Obligations.TimerReaders : Prop :=
  ∀ (i : Instr) (s t : State), exec i s = .next t →
    ((∀ x, i ≠ .ldVxDt x) → (∀ x, i ≠ .ldDtVx x) → ∀ d, exec i { s with dt := d } = .next { t with dt := d }) ∧
    ((∀ x, i ≠ .ldStVx x) → ∀ d, exec i { s with st := d } = .next { t with st := d })

/-! ## Control flow -/

/-- 40_flow.md R80: with `SP > 0`, `RET` takes one from `SP` and sets `pc` to the cell there, in full; with `SP = 0` it raises
`StackUnderflow`, code 3, at its own address, and nothing else changes. (That the vacated, dead cell keeps its content is the
model's choice, which 10_state.md R19 leaves open: log entry 6.) -/
def Obligations.RetResult : Prop :=
  ∀ s : State,
    (s.sp.val ≠ 0 → Ends (exec .ret s) fun t =>
      t.sp.val + 1 = s.sp.val ∧ s.stack[t.sp.val]? = some t.pc ∧ OnlyChanges (fun p => p = .pc ∨ p = .sp) s t) ∧
    (s.sp.val = 0 → Ends (exec .ret s) fun t =>
      (∃ d, t.diag = s.diag ++ [d] ∧ d.kind.code = 3 ∧ d.addr = s.pc - 2 ∧ d.word = 0x00EE) ∧
      OnlyChanges (fun p => p = .diag) s t)

/-- 40_flow.md R81, R88: `JP` sets `pc` to the 12-bit address; `JP V0` to `V0` plus the address, not reduced. Neither changes
anything else. -/
def Obligations.Jumps : Prop :=
  ∀ (nnn : Addr) (s : State),
    (Ends (exec (.jp nnn) s) fun t => t.pc.toNat = nnn.toNat ∧ OnlyChanges (fun p => p = .pc) s t) ∧
    (Ends (exec (.jpV0 nnn) s) fun t => t.pc.toNat = (s.v 0).toNat + nnn.toNat ∧ OnlyChanges (fun p => p = .pc) s t)

/-- 40_flow.md R82: with `SP < 16`, `CALL` puts `pc` in full into the cell at `SP`, adds one to `SP`, and jumps; with all 16
cells in use it raises `StackOverflow`, code 4, at its own address, and nothing else changes (the spec's decision D2). (That the
dead cells above the new top keep their content is the model's choice, which 10_state.md R19 leaves open: log entry 6.) -/
def Obligations.CallResult : Prop :=
  ∀ (nnn : Addr) (s : State),
    (s.sp.val < 16 → Ends (exec (.call nnn) s) fun t =>
      t.stack[s.sp.val]? = some s.pc ∧ t.sp.val = s.sp.val + 1 ∧ t.pc.toNat = nnn.toNat ∧
      OnlyChanges (fun p => p = .pc ∨ p = .sp ∨ ∃ k : Fin 16, k.val = s.sp.val ∧ p = .cell k) s t) ∧
    (s.sp.val = 16 → Ends (exec (.call nnn) s) fun t =>
      (∃ d, t.diag = s.diag ++ [d] ∧ d.kind.code = 4 ∧ d.addr = s.pc - 2 ∧ d.word.toNat = 0x2000 + nnn.toNat) ∧
      OnlyChanges (fun p => p = .diag) s t)

/-- 40_flow.md R83 to R86: each skip adds a further 2 to `pc` when its condition holds, and changes nothing else. -/
def Obligations.Skips : Prop :=
  ∀ (x y : Reg) (kk : Byte) (s : State),
    (Ends (exec (.seImm x kk) s) fun t =>
      t.pc = (if s.v x = kk then s.pc + 2 else s.pc) ∧ OnlyChanges (fun p => p = .pc) s t) ∧
    (Ends (exec (.sneImm x kk) s) fun t =>
      t.pc = (if s.v x = kk then s.pc else s.pc + 2) ∧ OnlyChanges (fun p => p = .pc) s t) ∧
    (Ends (exec (.seReg x y) s) fun t =>
      t.pc = (if s.v x = s.v y then s.pc + 2 else s.pc) ∧ OnlyChanges (fun p => p = .pc) s t) ∧
    (Ends (exec (.sneReg x y) s) fun t =>
      t.pc = (if s.v x = s.v y then s.pc else s.pc + 2) ∧ OnlyChanges (fun p => p = .pc) s t)

/-- 40_flow.md R89 (the spec marks it derived, from R80, R82 and R19): a `RET` that finds the stack as its `CALL` left it lands
on the instruction after the call, with the stack as before. -/
def Obligations.RetMatchesCall : Prop :=
  ∀ (nnn : Addr) (s : State), s.sp.val < 16 → Ends (exec (.call nnn) s) fun t =>
    ∀ u : State, u.sp = t.sp → u.stack = t.stack → Ends (exec .ret u) fun w => w.pc = s.pc ∧ w.sp = s.sp ∧
      ∀ k : Fin 16, k.val < s.sp.val → w.stack[k.val]'k.isLt = s.stack[k.val]'k.isLt

/-- Pushes of a list, first to last. -/
def Claims.pushAll : List Word → State → Option State
  | [], s => some s
  | a :: as, s => (s.push a).bind (Claims.pushAll as)

/-- `n` pops: the values in the order popped, and the state after them. -/
def Claims.popAll : Nat → State → Option (List Word × State)
  | 0, s => some ([], s)
  | n + 1, s => s.pop.bind fun r => (Claims.popAll n r.2).map fun q => (r.1 :: q.1, q.2)

/-- 10_state.md R19: "for any sequence of pushes p1..pn followed by n pops, pops return pn..p1 in reverse order (holds for
n <= 16)", and a pop on an empty stack returns empty. -/
def Obligations.StackLaw : Prop :=
  (∀ (ps : List Word) (s : State), s.sp.val + ps.length ≤ 16 →
    ∃ t u, Claims.pushAll ps s = some t ∧ Claims.popAll ps.length t = some (ps.reverse, u) ∧ u.sp = s.sp) ∧
  (∀ s : State, s.sp.val = 0 → s.pop = none)

/-! ## Immediate -/

/-- 41_immediate.md R91, R92: `LD Vx, kk` loads; `ADD Vx, kk` adds modulo 256. Only `Vx` changes: `VF` only when it is `Vx`. -/
def Obligations.ImmediateResults : Prop :=
  ∀ (x : Reg) (kk : Byte) (s : State),
    (Ends (exec (.ldImm x kk) s) fun t => t.v x = kk ∧ OnlyChanges (fun p => p = .reg x) s t) ∧
    (Ends (exec (.addImm x kk) s) fun t =>
      (t.v x).toNat = ((s.v x).toNat + kk.toNat) % 256 ∧ OnlyChanges (fun p => p = .reg x) s t)

/-- 41_immediate.md R93: `RND Vx, kk` writes the sampled random byte, whatever it is, masked with `kk`: a bit of the result is 1
exactly where it is 1 in both. -/
def Obligations.RandomMasked : Prop :=
  ∀ (x : Reg) (kk : Byte) (s : State), Ends (exec (.rnd x kk) s) fun t =>
    (∀ j < 8, (t.v x).getLsbD j = (s.rnd.getLsbD j && kk.getLsbD j)) ∧ OnlyChanges (fun p => p = .reg x) s t

/-! ## ALU. In each, `x` and `y` may be 15: operands are read first, and the flag is written last (10_state.md R13). -/

/-- 42_alu.md R101: `LD Vx, Vy` copies, and writes no flag. -/
def Obligations.CopyResult : Prop :=
  ∀ (x y : Reg) (s : State), Ends (exec (.ldReg x y) s) fun t =>
    t.v x = s.v y ∧ OnlyChanges (fun p => p = .reg x) s t

/-- 42_alu.md R102 to R104: OR, AND, XOR bit by bit; `VF` becomes 0, also when it is the destination (the spec's decision D7). -/
def Obligations.LogicResults : Prop :=
  ∀ (x y : Reg) (s : State),
    (Ends (exec (.orReg x y) s) fun t =>
      (∀ j < 8, (t.v x).getLsbD j = (if x = 15 then false else (s.v x).getLsbD j || (s.v y).getLsbD j)) ∧ t.v 15 = 0 ∧
      OnlyChanges (fun p => p = .reg x ∨ p = .reg 15) s t) ∧
    (Ends (exec (.andReg x y) s) fun t =>
      (∀ j < 8, (t.v x).getLsbD j = (if x = 15 then false else (s.v x).getLsbD j && (s.v y).getLsbD j)) ∧ t.v 15 = 0 ∧
      OnlyChanges (fun p => p = .reg x ∨ p = .reg 15) s t) ∧
    (Ends (exec (.xorReg x y) s) fun t =>
      (∀ j < 8, (t.v x).getLsbD j = (if x = 15 then false else (s.v x).getLsbD j != (s.v y).getLsbD j)) ∧ t.v 15 = 0 ∧
      OnlyChanges (fun p => p = .reg x ∨ p = .reg 15) s t)

/-- 42_alu.md R105: the sum modulo 256 and the carry out; with `x = 15` the carry is what stays. -/
def Obligations.AddResult : Prop :=
  ∀ (x y : Reg) (s : State), Ends (exec (.addReg x y) s) fun t =>
    (t.v 15).toNat = (if (s.v x).toNat + (s.v y).toNat > 255 then 1 else 0) ∧
    (x ≠ 15 → (t.v x).toNat = ((s.v x).toNat + (s.v y).toNat) % 256) ∧
    OnlyChanges (fun p => p = .reg x ∨ p = .reg 15) s t

/-- 42_alu.md R106, R108: `Vx - Vy` and `Vy - Vx` modulo 256; the flag is 1 when no borrow occurred (the spec's decision D8). -/
def Obligations.SubtractResults : Prop :=
  ∀ (x y : Reg) (s : State),
    (Ends (exec (.subReg x y) s) fun t =>
      (t.v 15).toNat = (if (s.v x).toNat ≥ (s.v y).toNat then 1 else 0) ∧
      (x ≠ 15 → (t.v x).toNat = ((s.v x).toNat + 256 - (s.v y).toNat) % 256) ∧
      OnlyChanges (fun p => p = .reg x ∨ p = .reg 15) s t) ∧
    (Ends (exec (.subnReg x y) s) fun t =>
      (t.v 15).toNat = (if (s.v y).toNat ≥ (s.v x).toNat then 1 else 0) ∧
      (x ≠ 15 → (t.v x).toNat = ((s.v y).toNat + 256 - (s.v x).toNat) % 256) ∧
      OnlyChanges (fun p => p = .reg x ∨ p = .reg 15) s t)

/-- 42_alu.md R107, R109: `Vy` shifted by one, into `Vx`; the flag is the bit shifted out (the source register is the spec's
decision D6). -/
def Obligations.ShiftResults : Prop :=
  ∀ (x y : Reg) (s : State),
    (Ends (exec (.shrReg x y) s) fun t =>
      (t.v 15).toNat = (s.v y).toNat % 2 ∧ (x ≠ 15 → (t.v x).toNat = (s.v y).toNat / 2) ∧
      OnlyChanges (fun p => p = .reg x ∨ p = .reg 15) s t) ∧
    (Ends (exec (.shlReg x y) s) fun t =>
      (t.v 15).toNat = (s.v y).toNat / 128 ∧ (x ≠ 15 → (t.v x).toNat = 2 * (s.v y).toNat % 256) ∧
      OnlyChanges (fun p => p = .reg x ∨ p = .reg 15) s t)

/-! ## Index register and memory -/

/-- 43_index_memory.md R121, R122: `LD I` loads the 12-bit address; `ADD I` adds `Vx` modulo 2^16. Nothing else changes, not
`VF` either. -/
def Obligations.IndexResults : Prop :=
  ∀ (nnn : Addr) (x : Reg) (s : State),
    (Ends (exec (.ldI nnn) s) fun t => t.i.toNat = nnn.toNat ∧ OnlyChanges (fun p => p = .i) s t) ∧
    (Ends (exec (.addIVx x) s) fun t =>
      t.i.toNat = (s.i.toNat + (s.v x).toNat) % 65536 ∧ OnlyChanges (fun p => p = .i) s t)

/-- 43_index_memory.md R123: `LD F` sets `I` to the whole of `Vx` times 5. -/
def Obligations.GlyphAddress : Prop :=
  ∀ (x : Reg) (s : State), Ends (exec (.ldFVx x) s) fun t =>
    t.i.toNat = (s.v x).toNat * 5 ∧ OnlyChanges (fun p => p = .i) s t

/-- 43_index_memory.md R124: the hundreds, tens and ones go to `I`, `I + 1`, `I + 2`, addresses modulo 4096; every other byte,
and everything else, is unchanged. -/
def Obligations.BcdStore : Prop :=
  ∀ (x : Reg) (s : State), Ends (exec (.ldBVx x) s) fun t =>
    (t.mem.read (s.effAddr 0)).toNat = (s.v x).toNat / 100 ∧
    (t.mem.read (s.effAddr 1)).toNat = (s.v x).toNat / 10 % 10 ∧
    (t.mem.read (s.effAddr 2)).toNat = (s.v x).toNat % 10 ∧
    OnlyChanges (fun p => ∃ k < 3, p = .byte (s.dataAddr k)) s t

/-- 43_index_memory.md R125: `V0` to `Vx` go to `I` and up, addresses modulo 4096; every other byte, the registers and `I` are
unchanged. -/
def Obligations.BlockStore : Prop :=
  ∀ (x : Reg) (s : State), Ends (exec (.storeRegs x) s) fun t =>
    (∀ k : Reg, k.val ≤ x.val → t.mem.read (s.effAddr k.val) = s.v k) ∧
    OnlyChanges (fun p => ∃ k ≤ x.val, p = .byte (s.dataAddr k)) s t

/-- 43_index_memory.md R126: the bytes at `I` and up go to `V0` to `Vx`; the other registers, `I` and memory are unchanged. -/
def Obligations.BlockLoad : Prop :=
  ∀ (x : Reg) (s : State), Ends (exec (.loadRegs x) s) fun t =>
    (∀ k : Reg, k.val ≤ x.val → t.v k = s.mem.read (s.effAddr k.val)) ∧
    OnlyChanges (fun p => ∃ k : Reg, k.val ≤ x.val ∧ p = .reg k) s t

/-- 43_index_memory.md R127 (the spec marks it derived, from R125 and R126): a block stored and loaded again, with anything in
the registers between, gives them their values back; and a block loaded and stored again leaves memory as it was. -/
def Obligations.BlockRoundTrip : Prop :=
  ∀ (x : Reg) (s : State),
    (Ends (exec (.storeRegs x) s) fun t => ∀ u : State, u.mem = t.mem → u.i = t.i →
      Ends (exec (.loadRegs x) u) fun w => ∀ k : Reg, k.val ≤ x.val → w.v k = s.v k) ∧
    (Ends (exec (.loadRegs x) s) fun t => Ends (exec (.storeRegs x) t) fun w =>
      ∀ a : Nat, w.mem.read a = s.mem.read a)

/-- 20_memory.md R55: a store is seen by the very next fetch: registers stored over the address in `pc` are the word fetched
there. -/
def Obligations.StoreSeenByFetch : Prop :=
  ∀ (x : Reg) (s : State), 1 ≤ x.val → s.i.toNat % 4096 = s.pc.toNat % 4096 →
    Ends (exec (.storeRegs x) s) fun t => t.pc = s.pc ∧ fetchWord t = Word.ofBytes (s.v 0) (s.v 1)

/-- 20_memory.md R41, R42, R43: an address counts modulo 4096 for reads and writes; a 2-byte read has the byte at the lower address
as its high byte; a write of one byte changes that byte, a 2-byte write those two, and nothing else; and a 2-byte write is read back,
also across 0xFFF. -/
def Obligations.MemoryPrimitives : Prop :=
  ∀ (m : Memory) (a b : Nat) (v : Byte) (w : Word),
    m.read (a + 4096) = m.read a ∧ m.write (a + 4096) v = m.write a v ∧
    (m.read16 a).toNat = (m.read a).toNat * 256 + (m.read (a + 1)).toNat ∧
    (m.write a v).read b = (if b % 4096 = a % 4096 then v else m.read b) ∧
    ((m.write16 a w).read a).toNat = w.toNat / 256 ∧ ((m.write16 a w).read (a + 1)).toNat = w.toNat % 256 ∧
    (b % 4096 ≠ a % 4096 → b % 4096 ≠ (a + 1) % 4096 → (m.write16 a w).read b = m.read b) ∧
    (m.write16 a w).read16 a = w

/-! ## Display -/

/-- 44_display.md R131, R135: `TogglePixel` XORs one pixel, leaves the others, and answers 1 exactly when a set pixel was erased;
twice, it restores the framebuffer. -/
def Obligations.TogglePixel : Prop :=
  ∀ (f : Frame) (i : Nat) (b : Bool), i < 2048 →
    (togglePixel f i b).1.pixel i = (f.pixel i != b) ∧
    (togglePixel f i b).2 = (f.pixel i && b) ∧
    (∀ j, j ≠ i → (togglePixel f i b).1.pixel j = f.pixel j) ∧
    (togglePixel (togglePixel f i b).1 i b).1 = f

/-- 44_display.md R132, R137: `CLS` sets every pixel to 0, and changes nothing else. -/
def Obligations.ClearDisplay : Prop :=
  ∀ s : State, Ends (exec .cls s) fun t =>
    (∀ p : Fin 2048, t.fb.pixel p.val = false) ∧ OnlyChanges (fun p => ∃ i, p = .pixel i) s t

/-- 44_display.md R134: after `DRW` every pixel of the grid is the old pixel XOR the sprite's bit there (a sprite clipped at the
right and bottom edges), `VF` is 1 exactly when some set pixel met a 1 bit of the sprite, and else 0, and nothing else changes. -/
def Obligations.DrawSprite : Prop :=
  ∀ (x y : Reg) (n : Nibble) (s : State), Ends (exec (.drw x y n) s) fun t =>
    (∀ px < 64, ∀ py < 32, t.fb.pixel (py * 64 + px) = (s.fb.pixel (py * 64 + px) != spriteBit s x y n px py)) ∧
    ((∃ px < 64, ∃ py < 32, s.fb.pixel (py * 64 + px) = true ∧ spriteBit s x y n px py = true) → t.v 15 = 1) ∧
    ((∀ px < 64, ∀ py < 32, s.fb.pixel (py * 64 + px) = true → spriteBit s x y n px py = false) → t.v 15 = 0) ∧
    OnlyChanges (fun p => p = .reg 15 ∨ ∃ i, p = .pixel i) s t

/-- Derived from the operation of 44_display.md R134 (the spec's own corner case says so of the framebuffer): the same sprite
drawn twice at the same place restores the framebuffer; the second draw sets `VF` to 1 exactly when the sprite has a 1 bit on a
pixel of the grid that was 0 before both. From a clear framebuffer that is R134's "at least one 1 bit inside the grid"; in
general that sentence disagrees with the operation (log entry 13). With a coordinate in `VF` the place would move. -/
def Obligations.DrawTwice : Prop :=
  ∀ (x y : Reg) (n : Nibble) (s : State), x ≠ 15 → y ≠ 15 →
    Ends (exec (.drw x y n) s) fun t => Ends (exec (.drw x y n) t) fun u =>
      (∀ p : Fin 2048, u.fb.pixel p.val = s.fb.pixel p.val) ∧
      (u.v 15 = 1 ↔ ∃ px < 64, ∃ py < 32, s.fb.pixel (py * 64 + px) = false ∧ spriteBit s x y n px py = true)

/-- 44_display.md R133: `Render` is the 2048 pixels in row-major order, each with its column and row. -/
def Obligations.RenderOrder : Prop :=
  ∀ f : Frame, (render f).length = 2048 ∧ ∀ i < 2048, (render f)[i]? = some (i % 64, i / 64, f.pixel i)

/-! ## Keypad and timers -/

/-- 45_keypad_timers.md R140, R141, R147: `SKP` skips when the key in the low four bits of `Vx` is held, `SKNP` when it is not. -/
def Obligations.KeySkips : Prop :=
  ∀ (x : Reg) (s : State),
    (Ends (exec (.skp x) s) fun t =>
      t.pc = (if s.keys.getLsbD ((s.v x).toNat % 16) then s.pc + 2 else s.pc) ∧ OnlyChanges (fun p => p = .pc) s t) ∧
    (Ends (exec (.sknp x) s) fun t =>
      t.pc = (if s.keys.getLsbD ((s.v x).toNat % 16) then s.pc else s.pc + 2) ∧ OnlyChanges (fun p => p = .pc) s t)

/-- 45_keypad_timers.md R142: with no key held, `pc` goes back by 2 and nothing else changes; with keys held, `Vx` becomes the
smallest number of a held key (the spec's decision D15), `pc` stays, and nothing else changes. -/
def Obligations.KeyWait : Prop :=
  ∀ (x : Reg) (s : State),
    (s.keys = 0 → Ends (exec (.ldVxK x) s) fun t => t.pc = s.pc - 2 ∧ OnlyChanges (fun p => p = .pc) s t) ∧
    (s.keys ≠ 0 → Ends (exec (.ldVxK x) s) fun t =>
      s.keys.getLsbD (t.v x).toNat = true ∧ (∀ j < (t.v x).toNat, s.keys.getLsbD j = false) ∧
      OnlyChanges (fun p => p = .reg x) s t)

/-- 45_keypad_timers.md R143 to R145: the timer moves; each changes its destination and nothing else. -/
def Obligations.TimerMoves : Prop :=
  ∀ (x : Reg) (s : State),
    (Ends (exec (.ldVxDt x) s) fun t => t.v x = s.dt ∧ OnlyChanges (fun p => p = .reg x) s t) ∧
    (Ends (exec (.ldDtVx x) s) fun t => t.dt = s.v x ∧ OnlyChanges (fun p => p = .dt) s t) ∧
    (Ends (exec (.ldStVx x) s) fun t => t.st = s.v x ∧ OnlyChanges (fun p => p = .st) s t)

/-- 60_exceptions.md R165: a tick takes one from each timer, never below 0, and changes nothing else. -/
def Obligations.TickCountsDown : Prop :=
  ∀ s : State, Ends (transition .tick s) fun t =>
    t.dt.toNat = s.dt.toNat - 1 ∧ t.st.toNat = s.st.toNat - 1 ∧ OnlyChanges (fun p => p = .dt ∨ p = .st) s t

/-- 60_exceptions.md R166 (the spec marks the general case derived, from R165): after a write of `v` and then `k` ticks, a timer
holds `max(v - k, 0)`; and `ticks k` of the model is `k` ticks, one after another. -/
def Obligations.TicksElapse : Prop :=
  ∀ (k : Nat) (s : State), runEvents (List.replicate k .tick) s = .next (ticks k s) ∧
    (ticks k s).dt.toNat = s.dt.toNat - k ∧ (ticks k s).st.toNat = s.st.toNat - k

/-! ## Host ports and the end of a run -/

/-- 20_memory.md R47, 60_exceptions.md R158: an image of at most 3584 bytes goes to 0x200 and up and changes nothing else; a
longer one fails with the terminal fault `ImageLoadFailure`. (That the failure is a fault with no state after it is the model's:
log entry 8.) -/
def Obligations.LoadImagePort : Prop :=
  ∀ (image : List Byte) (s : State),
    (image.length ≤ 3584 → Ends (transition (.loadImage image) s) fun t =>
      (∀ k (h : k < image.length), t.mem.read (0x200 + k) = image[k]) ∧
      OnlyChanges (fun p => ∃ a : Addr, 0x200 ≤ a.toNat ∧ a.toNat < 0x200 + image.length ∧ p = .byte a) s t) ∧
    (3584 < image.length → transition (.loadImage image) s = .fault .imageTooLarge)

/-- 70_reset_and_hazards.md R191: from an idle state a step leaves the whole state unchanged (but the inputs it sampled), and
the state is idle again (the predicate is the spec's decision D29). -/
def Obligations.IdleStays : Prop :=
  ∀ (s : State) (keys : BitVec 16) (rnd : Byte), Idle s →
    Ends (transition (.step keys rnd) s) fun t => OnlyChanges (fun p => p = .ports) s t ∧ Idle t
end

