-- ==== Sys2Proof/Laws/Decode.lean ====
section
/-! SUPPORT. The fields of a word and the layouts, as numbers; cutting a field out of a layout; and the masks of the opcode
map (30_encoding.md R61 to R66). -/

namespace Sys2Proof

@[simp] theorem ofField_field (r : Reg) : Reg.ofField r.field = r := by
  apply Fin.ext
  simp [Reg.ofField, Reg.field]

@[simp] theorem field_ofField (f : Nibble) : (Reg.ofField f).field = f := by
  simp [Reg.ofField, Reg.field]

@[simp] theorem toNat_field (x : Reg) : x.field.toNat = x.val := by
  simp [Reg.field]

theorem toNat_append_eq {n m : Nat} (a : BitVec n) (b : BitVec m) : (a ++ b).toNat = a.toNat * 2 ^ m + b.toNat := by
  rw [BitVec.toNat_append, ← Nat.shiftLeft_add_eq_or_of_lt b.isLt, Nat.shiftLeft_eq]

/-! ### The layouts as numbers -/

theorem toNat_layoutA (op : Nibble) (a : Addr) : (layoutA op a).toNat = op.toNat * 4096 + a.toNat :=
  toNat_append_eq op a

theorem toNat_layoutB (op : Nibble) (x : Reg) (k : Byte) :
    (layoutB op x k).toNat = op.toNat * 4096 + x.val * 256 + k.toNat := by
  have h := toNat_append_eq (op ++ x.field) k
  simp only [toNat_append_eq op x.field, toNat_field] at h
  exact h.trans (by omega)

theorem toNat_layoutC (op : Nibble) (x y : Reg) (n : Nibble) :
    (layoutC op x y n).toNat = op.toNat * 4096 + x.val * 256 + y.val * 16 + n.toNat := by
  have h := toNat_append_eq (op ++ x.field ++ y.field) n
  simp only [toNat_append_eq (op ++ x.field) y.field, toNat_append_eq op x.field, toNat_field] at h
  exact h.trans (by omega)

/-! ### The fields as numbers -/

theorem toNat_op (w : Word) : w.op.toNat = w.toNat / 4096 := by
  have := w.isLt
  simp [Word.op, BitVec.extractLsb'_toNat, Nat.shiftRight_eq_div_pow]
  omega

theorem toNat_nnn (w : Word) : w.nnn.toNat = w.toNat % 4096 := by
  simp [Word.nnn]

theorem val_x (w : Word) : w.x.val = w.toNat / 256 % 16 := by
  simp [Word.x, Reg.ofField, Nat.shiftRight_eq_div_pow]

theorem val_y (w : Word) : w.y.val = w.toNat / 16 % 16 := by
  simp [Word.y, Reg.ofField, Nat.shiftRight_eq_div_pow]

theorem toNat_n (w : Word) : w.n.toNat = w.toNat % 16 := by
  simp [Word.n]

theorem toNat_kk (w : Word) : w.kk.toNat = w.toNat % 256 := by
  simp [Word.kk]

/-! ### Cutting a field out of a layout -/

@[simp] theorem op_layoutA (op : Nibble) (a : Addr) : (layoutA op a).op = op := by
  apply BitVec.eq_of_toNat_eq
  rw [toNat_op, toNat_layoutA]
  omega

@[simp] theorem nnn_layoutA (op : Nibble) (a : Addr) : (layoutA op a).nnn = a := by
  apply BitVec.eq_of_toNat_eq
  rw [toNat_nnn, toNat_layoutA]
  omega

@[simp] theorem op_layoutB (op : Nibble) (x : Reg) (k : Byte) : (layoutB op x k).op = op := by
  apply BitVec.eq_of_toNat_eq
  rw [toNat_op, toNat_layoutB]
  omega

@[simp] theorem x_layoutB (op : Nibble) (x : Reg) (k : Byte) : (layoutB op x k).x = x := by
  apply Fin.ext
  rw [val_x, toNat_layoutB]
  omega

@[simp] theorem kk_layoutB (op : Nibble) (x : Reg) (k : Byte) : (layoutB op x k).kk = k := by
  apply BitVec.eq_of_toNat_eq
  rw [toNat_kk, toNat_layoutB]
  omega

@[simp] theorem op_layoutC (op : Nibble) (x y : Reg) (n : Nibble) : (layoutC op x y n).op = op := by
  apply BitVec.eq_of_toNat_eq
  rw [toNat_op, toNat_layoutC]
  omega

@[simp] theorem x_layoutC (op : Nibble) (x y : Reg) (n : Nibble) : (layoutC op x y n).x = x := by
  apply Fin.ext
  rw [val_x, toNat_layoutC]
  omega

@[simp] theorem y_layoutC (op : Nibble) (x y : Reg) (n : Nibble) : (layoutC op x y n).y = y := by
  apply Fin.ext
  rw [val_y, toNat_layoutC]
  omega

@[simp] theorem n_layoutC (op : Nibble) (x y : Reg) (n : Nibble) : (layoutC op x y n).n = n := by
  apply BitVec.eq_of_toNat_eq
  rw [toNat_n, toNat_layoutC]
  omega

/-! ### Putting the fields of a word together again -/

theorem layoutA_fields (w : Word) : layoutA w.op w.nnn = w := by
  apply BitVec.eq_of_toNat_eq
  rw [toNat_layoutA, toNat_op, toNat_nnn]
  omega

theorem layoutB_fields (w : Word) : layoutB w.op w.x w.kk = w := by
  apply BitVec.eq_of_toNat_eq
  rw [toNat_layoutB, toNat_op, val_x, toNat_kk]
  omega

theorem layoutC_fields (w : Word) : layoutC w.op w.x w.y w.n = w := by
  apply BitVec.eq_of_toNat_eq
  rw [toNat_layoutC, toNat_op, val_x, val_y, toNat_n]
  omega

/-! ### Bytes of a word -/

theorem toNat_ofBytes (hi lo : Byte) : (Word.ofBytes hi lo).toNat = hi.toNat * 256 + lo.toNat :=
  toNat_append_eq hi lo

@[simp] theorem hi_ofBytes (hi lo : Byte) : (Word.ofBytes hi lo).hi = hi := by
  apply BitVec.eq_of_toNat_eq
  simp [Word.hi, toNat_ofBytes, Nat.shiftRight_eq_div_pow]
  omega

@[simp] theorem lo_ofBytes (hi lo : Byte) : (Word.ofBytes hi lo).lo = lo := by
  apply BitVec.eq_of_toNat_eq
  simp [Word.lo, toNat_ofBytes]
  omega

@[simp] theorem ofBytes_hi_lo (w : Word) : Word.ofBytes w.hi w.lo = w := by
  apply BitVec.eq_of_toNat_eq
  simp [toNat_ofBytes, Word.hi, Word.lo, Nat.shiftRight_eq_div_pow]
  omega

/-! ### The masks of the opcode map -/

theorem bit_F000 : ∀ i : Fin 16, (0xF000#16).getLsbD i = (decide (12 ≤ i.val) || (0x0000#16).getLsbD i) := by decide
theorem bit_F00F : ∀ i : Fin 16, (0xF00F#16).getLsbD i = (decide (12 ≤ i.val) || (0x000F#16).getLsbD i) := by decide
theorem bit_F0FF : ∀ i : Fin 16, (0xF0FF#16).getLsbD i = (decide (12 ≤ i.val) || (0x00FF#16).getLsbD i) := by decide

/-- A mask of the top nibble and the low `k` bits keeps the opcode nibble and those bits. -/
theorem toNat_and_mask (w m low : Word) (k : Nat) (hk : k ≤ 12) (hl : low.toNat = 2 ^ k - 1)
    (hm : ∀ i : Fin 16, m.getLsbD i = (decide (12 ≤ i.val) || low.getLsbD i)) :
    (w &&& m).toNat = w.toNat / 4096 * 4096 + w.toNat % 2 ^ k := by
  have h : w &&& m = ((w >>> 12) <<< 12) ||| (w &&& low) := by
    apply BitVec.eq_of_getLsbD_eq
    intro i hi
    have e : 12 ≤ i → 12 + (i - 12) = i := by omega
    have b := hm ⟨i, hi⟩
    simp only [BitVec.getLsbD_and, BitVec.getLsbD_or, b]
    by_cases h : 12 ≤ i <;> simp_all <;> grind
  have hw := w.isLt
  have hp : 2 ^ k ≤ 2 ^ 12 := Nat.pow_le_pow_right (by omega) hk
  have hlt : w.toNat % 2 ^ k < 2 ^ 12 := Nat.lt_of_lt_of_le (Nat.mod_lt _ (Nat.two_pow_pos k)) hp
  have hs : (w.toNat / 2 ^ 12) <<< 12 % 2 ^ 16 = (w.toNat / 2 ^ 12) <<< 12 := by
    rw [Nat.shiftLeft_eq]
    omega
  rw [h, BitVec.toNat_or, BitVec.toNat_and, hl, Nat.and_two_pow_sub_one_eq_mod, BitVec.toNat_shiftLeft,
    BitVec.toNat_ushiftRight, Nat.shiftRight_eq_div_pow, hs, ← Nat.shiftLeft_add_eq_or_of_lt hlt, Nat.shiftLeft_eq]
  norm_num

theorem toNat_and_F000 (w : Word) : (w &&& 0xF000#16).toNat = w.toNat / 4096 * 4096 := by
  simpa [Nat.mod_one] using toNat_and_mask w _ 0x0000#16 0 (by decide) rfl bit_F000

theorem toNat_and_F00F (w : Word) : (w &&& 0xF00F#16).toNat = w.toNat / 4096 * 4096 + w.toNat % 16 :=
  toNat_and_mask w _ 0x000F#16 4 (by decide) rfl bit_F00F

theorem toNat_and_F0FF (w : Word) : (w &&& 0xF0FF#16).toNat = w.toNat / 4096 * 4096 + w.toNat % 256 :=
  toNat_and_mask w _ 0x00FF#16 8 (by decide) rfl bit_F0FF

/-! The four masks of the opcode map, as conditions on the fields they keep. -/

theorem and_F000_iff (w : Word) (v : Nat) (h : v < 65536 ∧ v % 4096 = 0) :
    w &&& 0xF000#16 = BitVec.ofNat 16 v ↔ w.op = BitVec.ofNat 4 (v / 4096) := by
  have := w.isLt
  rw [← BitVec.toNat_inj, ← BitVec.toNat_inj, toNat_and_F000, toNat_op]
  simp only [BitVec.toNat_ofNat]
  omega

theorem and_F00F_iff (w : Word) (v : Nat) (h : v < 65536 ∧ v % 4096 < 16) :
    w &&& 0xF00F#16 = BitVec.ofNat 16 v ↔ w.op = BitVec.ofNat 4 (v / 4096) ∧ w.n = BitVec.ofNat 4 (v % 4096) := by
  have := w.isLt
  rw [← BitVec.toNat_inj, ← BitVec.toNat_inj, ← BitVec.toNat_inj, toNat_and_F00F, toNat_op, toNat_n]
  simp only [BitVec.toNat_ofNat]
  omega

theorem and_F0FF_iff (w : Word) (v : Nat) (h : v < 65536 ∧ v % 4096 < 256) :
    w &&& 0xF0FF#16 = BitVec.ofNat 16 v ↔ w.op = BitVec.ofNat 4 (v / 4096) ∧ w.kk = BitVec.ofNat 8 (v % 4096) := by
  have := w.isLt
  rw [← BitVec.toNat_inj, ← BitVec.toNat_inj, ← BitVec.toNat_inj, toNat_and_F0FF, toNat_op, toNat_kk]
  simp only [BitVec.toNat_ofNat]
  omega

theorem and_FFFF_iff (w : Word) (v : Nat) (h : v < 65536) :
    w &&& 0xFFFF#16 = BitVec.ofNat 16 v ↔ w.op = BitVec.ofNat 4 (v / 4096) ∧ w.nnn = BitVec.ofNat 12 (v % 4096) := by
  have := w.isLt
  have hm : w &&& 0xFFFF#16 = w := BitVec.and_allOnes
  rw [hm, ← BitVec.toNat_inj, ← BitVec.toNat_inj, ← BitVec.toNat_inj, toNat_op, toNat_nnn]
  simp only [BitVec.toNat_ofNat]
  omega

/-- The rows that a word selects, one after another, so that each row can be decided on its own. -/
theorem selectedRows_eq (w : Word) (rows : List OpcodeRow) : (rows.filter (·.selects w)).map (·.mnemonic) =
    rows.flatMap fun row => if w &&& row.mask = row.pattern then [row.mnemonic] else [] := by
  induction rows with
  | nil => rfl
  | cons row rows ih =>
    by_cases h : w &&& row.mask = row.pattern
    · simp [OpcodeRow.selects, h, ← ih]
    · simp [OpcodeRow.selects, h, ← ih]

end Sys2Proof
end

