-- ==== Sys2Proof/Laws/State.lean ====
section
/-! SUPPORT. One lemma per field per update of State, true by rfl (written "(rfl)", so that simp rewrites with them and keeps its Decidable terms in step), so that no proof unfolds a record update; and what a
register reads after each of them. -/

namespace Sys2Proof.Machine

/-! ### The parameters -/

@[simp] theorem config_memSize : config.memSize = 4096 := (rfl)
@[simp] theorem config_pcReset : config.pcReset = 0x0200 := (rfl)
@[simp] theorem config_loadBase : config.loadBase = 0x200 := (rfl)
@[simp] theorem config_flagReg : config.flagReg = 15 := (rfl)
@[simp] theorem config_fontBase : config.fontBase = 0 := (rfl)
@[simp] theorem config_fontGlyphs : config.fontGlyphs = 16 := (rfl)
@[simp] theorem config_glyphBytes : config.glyphBytes = 5 := (rfl)
@[simp] theorem config_instrBytes : config.instrBytes = 2 := (rfl)
@[simp] theorem config_fbW : config.fbW = 64 := (rfl)
@[simp] theorem config_fbH : config.fbH = 32 := (rfl)
@[simp] theorem config_fbPixels : config.fbPixels = 2048 := (rfl)
@[simp] theorem config_stackDepth : config.stackDepth = 16 := (rfl)
@[simp] theorem config_keyCount : config.keyCount = 16 := (rfl)
@[simp] theorem config_shiftSource : config.shiftSource = .vy := (rfl)
@[simp] theorem config_logicWritesVF : config.logicWritesVF = true := (rfl)
@[simp] theorem config_ldstIncrementsI : config.ldstIncrementsI = false := (rfl)
@[simp] theorem config_drawStartWrap : config.drawStartWrap = true := (rfl)
@[simp] theorem config_drawRightEdge : config.drawRightEdge = .clip := (rfl)
@[simp] theorem config_drawBottomEdge : config.drawBottomEdge = .terminate := (rfl)
@[simp] theorem config_keyIndexMask : config.keyIndexMask = 0x0F := (rfl)
@[simp] theorem config_waitKeyChoice : config.waitKeyChoice = .lowest := (rfl)
@[simp] theorem config_fontIndexMask : config.fontIndexMask = 0xFF := (rfl)
@[simp] theorem config_resetValues : config.resetValues = ⟨0, 0, 0, 0, false, 0, 0, 0⟩ := (rfl)

/-- The types of the model have the widths and counts of 00_scope.md R5. -/
theorem types_fit_config :
    (Addr = BitVec config.addrBits ∧ Reg = Fin config.regCount ∧ Byte = BitVec config.regBits ∧ Word = BitVec config.pcBits) ∧
    (Word = BitVec config.iBits ∧ Word = BitVec config.stackEntryBits ∧ Byte = BitVec config.timerBits) ∧
    (Frame = BitVec config.fbPixels ∧ Memory = List (Nat × BitVec config.regBits)) ∧
    ∀ s : State, s.regs.size = config.regCount ∧ s.stack.size = config.stackDepth ∧ s.sp.val ≤ config.stackDepth ∧
      s.keys.toNat < 2 ^ config.keyCount :=
  ⟨⟨rfl, rfl, rfl, rfl⟩, ⟨rfl, rfl, rfl⟩, ⟨rfl, rfl⟩, fun s => ⟨rfl, rfl, Nat.le_of_lt_succ s.sp.isLt, s.keys.isLt⟩⟩

/-- The derived parameters agree with those they derive from: "derived: 2^12 = 4096", 64 columns of 32 rows, 16 glyphs of 5
bytes (00_scope.md R5). -/
theorem config_consistent :
    config.memSize = 2 ^ config.addrBits ∧ config.fbPixels = config.fbW * config.fbH ∧
    config.fontBytes.length = config.fontGlyphs * config.glyphBytes := by decide

/-! ### Registers -/

theorem v_def (s : State) (r : Reg) : s.v r = s.regs[r.val]'r.isLt := rfl

@[simp] theorem regs_getElem (s : State) (r : Reg) : s.regs[r.val]'r.isLt = s.v r := (rfl)

@[simp] theorem v_mk (regs : Vector Byte 16) (pc i : Word) (sp : Fin 17) (stack : Vector Word 16) (mem : Memory) (fb : Frame)
    (dt st : Byte) (diag : List DiagRecord) (keys : BitVec 16) (rnd : Byte) (inputs : List Input) (draws : Nat) (r : Reg) :
    State.v ⟨regs, pc, i, sp, stack, mem, fb, dt, st, diag, keys, rnd, inputs, draws⟩ r = regs[r.val]'r.isLt := (rfl)

/-- Two states with the same register file agree on every register. -/
theorem v_congr {s t : State} (h : t.regs = s.regs) (r : Reg) : t.v r = s.v r := by
  simp only [v_def, h]

@[simp] theorem v_setV (s : State) (x r : Reg) (b : Byte) : (s.setV x b).v r = if r = x then b else s.v r := by
  by_cases h : r = x
  · simp [h, State.setV]
  · have hv : ¬ x.val = r.val := fun e => h (Fin.ext e.symm)
    simp [State.setV, h, Vector.getElem_set_ne _ _ hv]

@[simp] theorem v_setResultFlag (s : State) (x r : Reg) (b : Byte) (f : Bool) :
    (s.setResultFlag x b f).v r = if r = 15 then flagByte f else if r = x then b else s.v r := by
  simp [State.setResultFlag]

@[simp] theorem setLogic_eq (s : State) (x : Reg) (b : Byte) : s.setLogic x b = s.setResultFlag x b false := rfl

@[simp] theorem v_advancePc (s : State) (r : Reg) : s.advancePc.v r = s.v r := (rfl)
@[simp] theorem v_backPc (s : State) (r : Reg) : s.backPc.v r = s.v r := (rfl)
@[simp] theorem v_raiseFault (k : FaultKind) (w : Word) (s : State) (r : Reg) : (raiseFault k w s).v r = s.v r := (rfl)
@[simp] theorem v_tick (s : State) (r : Reg) : (tick s).v r = s.v r := (rfl)
@[simp] theorem v_ticks (k : Nat) (s : State) (r : Reg) : (ticks k s).v r = s.v r := (rfl)
@[simp] theorem v_present (s : State) (k : BitVec 16) (b : Byte) (r : Reg) : (s.present k b).v r = s.v r := (rfl)
@[simp] theorem v_takeInput (s : State) (r : Reg) : (takeInput s).v r = s.v r := (rfl)
@[simp] theorem v_placeWord (s : State) (w : Word) (r : Reg) : (placeWord s w).v r = s.v r := (rfl)

/-! ### setV -/

@[simp] theorem setV_pc (s : State) (x : Reg) (b : Byte) : (s.setV x b).pc = s.pc := (rfl)
@[simp] theorem setV_i (s : State) (x : Reg) (b : Byte) : (s.setV x b).i = s.i := (rfl)
@[simp] theorem setV_sp (s : State) (x : Reg) (b : Byte) : (s.setV x b).sp = s.sp := (rfl)
@[simp] theorem setV_stack (s : State) (x : Reg) (b : Byte) : (s.setV x b).stack = s.stack := (rfl)
@[simp] theorem setV_mem (s : State) (x : Reg) (b : Byte) : (s.setV x b).mem = s.mem := (rfl)
@[simp] theorem setV_fb (s : State) (x : Reg) (b : Byte) : (s.setV x b).fb = s.fb := (rfl)
@[simp] theorem setV_dt (s : State) (x : Reg) (b : Byte) : (s.setV x b).dt = s.dt := (rfl)
@[simp] theorem setV_st (s : State) (x : Reg) (b : Byte) : (s.setV x b).st = s.st := (rfl)
@[simp] theorem setV_diag (s : State) (x : Reg) (b : Byte) : (s.setV x b).diag = s.diag := (rfl)
@[simp] theorem setV_keys (s : State) (x : Reg) (b : Byte) : (s.setV x b).keys = s.keys := (rfl)
@[simp] theorem setV_rnd (s : State) (x : Reg) (b : Byte) : (s.setV x b).rnd = s.rnd := (rfl)
@[simp] theorem setV_inputs (s : State) (x : Reg) (b : Byte) : (s.setV x b).inputs = s.inputs := (rfl)
@[simp] theorem setV_draws (s : State) (x : Reg) (b : Byte) : (s.setV x b).draws = s.draws := (rfl)

/-! ### advancePc -/

@[simp] theorem advancePc_regs (s : State) : s.advancePc.regs = s.regs := (rfl)
@[simp] theorem advancePc_pc (s : State) : s.advancePc.pc = s.pc + 2 := (rfl)
@[simp] theorem advancePc_i (s : State) : s.advancePc.i = s.i := (rfl)
@[simp] theorem advancePc_sp (s : State) : s.advancePc.sp = s.sp := (rfl)
@[simp] theorem advancePc_stack (s : State) : s.advancePc.stack = s.stack := (rfl)
@[simp] theorem advancePc_mem (s : State) : s.advancePc.mem = s.mem := (rfl)
@[simp] theorem advancePc_fb (s : State) : s.advancePc.fb = s.fb := (rfl)
@[simp] theorem advancePc_dt (s : State) : s.advancePc.dt = s.dt := (rfl)
@[simp] theorem advancePc_st (s : State) : s.advancePc.st = s.st := (rfl)
@[simp] theorem advancePc_diag (s : State) : s.advancePc.diag = s.diag := (rfl)
@[simp] theorem advancePc_keys (s : State) : s.advancePc.keys = s.keys := (rfl)
@[simp] theorem advancePc_rnd (s : State) : s.advancePc.rnd = s.rnd := (rfl)
@[simp] theorem advancePc_inputs (s : State) : s.advancePc.inputs = s.inputs := (rfl)
@[simp] theorem advancePc_draws (s : State) : s.advancePc.draws = s.draws := (rfl)

/-! ### backPc -/

@[simp] theorem backPc_regs (s : State) : s.backPc.regs = s.regs := (rfl)
@[simp] theorem backPc_pc (s : State) : s.backPc.pc = s.pc - 2 := (rfl)
@[simp] theorem backPc_i (s : State) : s.backPc.i = s.i := (rfl)
@[simp] theorem backPc_sp (s : State) : s.backPc.sp = s.sp := (rfl)
@[simp] theorem backPc_stack (s : State) : s.backPc.stack = s.stack := (rfl)
@[simp] theorem backPc_mem (s : State) : s.backPc.mem = s.mem := (rfl)
@[simp] theorem backPc_fb (s : State) : s.backPc.fb = s.fb := (rfl)
@[simp] theorem backPc_dt (s : State) : s.backPc.dt = s.dt := (rfl)
@[simp] theorem backPc_st (s : State) : s.backPc.st = s.st := (rfl)
@[simp] theorem backPc_diag (s : State) : s.backPc.diag = s.diag := (rfl)
@[simp] theorem backPc_keys (s : State) : s.backPc.keys = s.keys := (rfl)
@[simp] theorem backPc_rnd (s : State) : s.backPc.rnd = s.rnd := (rfl)
@[simp] theorem backPc_inputs (s : State) : s.backPc.inputs = s.inputs := (rfl)
@[simp] theorem backPc_draws (s : State) : s.backPc.draws = s.draws := (rfl)

/-! ### raiseFault -/

@[simp] theorem raiseFault_regs (k : FaultKind) (w : Word) (s : State) : (raiseFault k w s).regs = s.regs := (rfl)
@[simp] theorem raiseFault_pc (k : FaultKind) (w : Word) (s : State) : (raiseFault k w s).pc = s.pc := (rfl)
@[simp] theorem raiseFault_i (k : FaultKind) (w : Word) (s : State) : (raiseFault k w s).i = s.i := (rfl)
@[simp] theorem raiseFault_sp (k : FaultKind) (w : Word) (s : State) : (raiseFault k w s).sp = s.sp := (rfl)
@[simp] theorem raiseFault_stack (k : FaultKind) (w : Word) (s : State) : (raiseFault k w s).stack = s.stack := (rfl)
@[simp] theorem raiseFault_mem (k : FaultKind) (w : Word) (s : State) : (raiseFault k w s).mem = s.mem := (rfl)
@[simp] theorem raiseFault_fb (k : FaultKind) (w : Word) (s : State) : (raiseFault k w s).fb = s.fb := (rfl)
@[simp] theorem raiseFault_dt (k : FaultKind) (w : Word) (s : State) : (raiseFault k w s).dt = s.dt := (rfl)
@[simp] theorem raiseFault_st (k : FaultKind) (w : Word) (s : State) : (raiseFault k w s).st = s.st := (rfl)
@[simp] theorem raiseFault_diag (k : FaultKind) (w : Word) (s : State) : (raiseFault k w s).diag = s.diag ++ [⟨k, s.pc - 2, w⟩] := (rfl)
@[simp] theorem raiseFault_keys (k : FaultKind) (w : Word) (s : State) : (raiseFault k w s).keys = s.keys := (rfl)
@[simp] theorem raiseFault_rnd (k : FaultKind) (w : Word) (s : State) : (raiseFault k w s).rnd = s.rnd := (rfl)
@[simp] theorem raiseFault_inputs (k : FaultKind) (w : Word) (s : State) : (raiseFault k w s).inputs = s.inputs := (rfl)
@[simp] theorem raiseFault_draws (k : FaultKind) (w : Word) (s : State) : (raiseFault k w s).draws = s.draws := (rfl)

/-! ### tick -/

@[simp] theorem tick_regs (s : State) : (tick s).regs = s.regs := (rfl)
@[simp] theorem tick_pc (s : State) : (tick s).pc = s.pc := (rfl)
@[simp] theorem tick_i (s : State) : (tick s).i = s.i := (rfl)
@[simp] theorem tick_sp (s : State) : (tick s).sp = s.sp := (rfl)
@[simp] theorem tick_stack (s : State) : (tick s).stack = s.stack := (rfl)
@[simp] theorem tick_mem (s : State) : (tick s).mem = s.mem := (rfl)
@[simp] theorem tick_fb (s : State) : (tick s).fb = s.fb := (rfl)
@[simp] theorem tick_dt (s : State) : (tick s).dt = countDown s.dt := (rfl)
@[simp] theorem tick_st (s : State) : (tick s).st = countDown s.st := (rfl)
@[simp] theorem tick_diag (s : State) : (tick s).diag = s.diag := (rfl)
@[simp] theorem tick_keys (s : State) : (tick s).keys = s.keys := (rfl)
@[simp] theorem tick_rnd (s : State) : (tick s).rnd = s.rnd := (rfl)
@[simp] theorem tick_inputs (s : State) : (tick s).inputs = s.inputs := (rfl)
@[simp] theorem tick_draws (s : State) : (tick s).draws = s.draws := (rfl)

/-! ### ticks -/

@[simp] theorem ticks_regs (k : Nat) (s : State) : (ticks k s).regs = s.regs := (rfl)
@[simp] theorem ticks_pc (k : Nat) (s : State) : (ticks k s).pc = s.pc := (rfl)
@[simp] theorem ticks_i (k : Nat) (s : State) : (ticks k s).i = s.i := (rfl)
@[simp] theorem ticks_sp (k : Nat) (s : State) : (ticks k s).sp = s.sp := (rfl)
@[simp] theorem ticks_stack (k : Nat) (s : State) : (ticks k s).stack = s.stack := (rfl)
@[simp] theorem ticks_mem (k : Nat) (s : State) : (ticks k s).mem = s.mem := (rfl)
@[simp] theorem ticks_fb (k : Nat) (s : State) : (ticks k s).fb = s.fb := (rfl)
@[simp] theorem ticks_dt (k : Nat) (s : State) : (ticks k s).dt = countDownBy k s.dt := (rfl)
@[simp] theorem ticks_st (k : Nat) (s : State) : (ticks k s).st = countDownBy k s.st := (rfl)
@[simp] theorem ticks_diag (k : Nat) (s : State) : (ticks k s).diag = s.diag := (rfl)
@[simp] theorem ticks_keys (k : Nat) (s : State) : (ticks k s).keys = s.keys := (rfl)
@[simp] theorem ticks_rnd (k : Nat) (s : State) : (ticks k s).rnd = s.rnd := (rfl)
@[simp] theorem ticks_inputs (k : Nat) (s : State) : (ticks k s).inputs = s.inputs := (rfl)
@[simp] theorem ticks_draws (k : Nat) (s : State) : (ticks k s).draws = s.draws := (rfl)

/-! ### present -/

@[simp] theorem present_regs (s : State) (k : BitVec 16) (r : Byte) : (s.present k r).regs = s.regs := (rfl)
@[simp] theorem present_pc (s : State) (k : BitVec 16) (r : Byte) : (s.present k r).pc = s.pc := (rfl)
@[simp] theorem present_i (s : State) (k : BitVec 16) (r : Byte) : (s.present k r).i = s.i := (rfl)
@[simp] theorem present_sp (s : State) (k : BitVec 16) (r : Byte) : (s.present k r).sp = s.sp := (rfl)
@[simp] theorem present_stack (s : State) (k : BitVec 16) (r : Byte) : (s.present k r).stack = s.stack := (rfl)
@[simp] theorem present_mem (s : State) (k : BitVec 16) (r : Byte) : (s.present k r).mem = s.mem := (rfl)
@[simp] theorem present_fb (s : State) (k : BitVec 16) (r : Byte) : (s.present k r).fb = s.fb := (rfl)
@[simp] theorem present_dt (s : State) (k : BitVec 16) (r : Byte) : (s.present k r).dt = s.dt := (rfl)
@[simp] theorem present_st (s : State) (k : BitVec 16) (r : Byte) : (s.present k r).st = s.st := (rfl)
@[simp] theorem present_diag (s : State) (k : BitVec 16) (r : Byte) : (s.present k r).diag = s.diag := (rfl)
@[simp] theorem present_keys (s : State) (k : BitVec 16) (r : Byte) : (s.present k r).keys = k := (rfl)
@[simp] theorem present_rnd (s : State) (k : BitVec 16) (r : Byte) : (s.present k r).rnd = r := (rfl)
@[simp] theorem present_inputs (s : State) (k : BitVec 16) (r : Byte) : (s.present k r).inputs = s.inputs := (rfl)
@[simp] theorem present_draws (s : State) (k : BitVec 16) (r : Byte) : (s.present k r).draws = s.draws := (rfl)

/-! ### takeInput -/

@[simp] theorem takeInput_regs (s : State) : (takeInput s).regs = s.regs := (rfl)
@[simp] theorem takeInput_pc (s : State) : (takeInput s).pc = s.pc := (rfl)
@[simp] theorem takeInput_i (s : State) : (takeInput s).i = s.i := (rfl)
@[simp] theorem takeInput_sp (s : State) : (takeInput s).sp = s.sp := (rfl)
@[simp] theorem takeInput_stack (s : State) : (takeInput s).stack = s.stack := (rfl)
@[simp] theorem takeInput_mem (s : State) : (takeInput s).mem = s.mem := (rfl)
@[simp] theorem takeInput_fb (s : State) : (takeInput s).fb = s.fb := (rfl)
@[simp] theorem takeInput_dt (s : State) : (takeInput s).dt = countDownBy (nextInput s).ticks s.dt := (rfl)
@[simp] theorem takeInput_st (s : State) : (takeInput s).st = countDownBy (nextInput s).ticks s.st := (rfl)
@[simp] theorem takeInput_diag (s : State) : (takeInput s).diag = s.diag := (rfl)
@[simp] theorem takeInput_keys (s : State) : (takeInput s).keys = (nextInput s).keys := (rfl)
@[simp] theorem takeInput_rnd (s : State) : (takeInput s).rnd = (nextInput s).rnd := (rfl)
@[simp] theorem takeInput_inputs (s : State) : (takeInput s).inputs = s.inputs.tail := (rfl)
@[simp] theorem takeInput_draws (s : State) : (takeInput s).draws = s.draws + 1 := (rfl)

/-! ### placeWord -/

@[simp] theorem placeWord_regs (s : State) (w : Word) : (placeWord s w).regs = s.regs := (rfl)
@[simp] theorem placeWord_pc (s : State) (w : Word) : (placeWord s w).pc = s.pc := (rfl)
@[simp] theorem placeWord_i (s : State) (w : Word) : (placeWord s w).i = s.i := (rfl)
@[simp] theorem placeWord_sp (s : State) (w : Word) : (placeWord s w).sp = s.sp := (rfl)
@[simp] theorem placeWord_stack (s : State) (w : Word) : (placeWord s w).stack = s.stack := (rfl)
@[simp] theorem placeWord_mem (s : State) (w : Word) : (placeWord s w).mem = s.mem.write16 s.pc.toNat w := (rfl)
@[simp] theorem placeWord_fb (s : State) (w : Word) : (placeWord s w).fb = s.fb := (rfl)
@[simp] theorem placeWord_dt (s : State) (w : Word) : (placeWord s w).dt = s.dt := (rfl)
@[simp] theorem placeWord_st (s : State) (w : Word) : (placeWord s w).st = s.st := (rfl)
@[simp] theorem placeWord_diag (s : State) (w : Word) : (placeWord s w).diag = s.diag := (rfl)
@[simp] theorem placeWord_keys (s : State) (w : Word) : (placeWord s w).keys = s.keys := (rfl)
@[simp] theorem placeWord_rnd (s : State) (w : Word) : (placeWord s w).rnd = s.rnd := (rfl)
@[simp] theorem placeWord_inputs (s : State) (w : Word) : (placeWord s w).inputs = s.inputs := (rfl)
@[simp] theorem placeWord_draws (s : State) (w : Word) : (placeWord s w).draws = s.draws := (rfl)

/-! ### setResultFlag -/

@[simp] theorem setResultFlag_pc (s : State) (x : Reg) (b : Byte) (c : Bool) : (s.setResultFlag x b c).pc = s.pc := (rfl)
@[simp] theorem setResultFlag_i (s : State) (x : Reg) (b : Byte) (c : Bool) : (s.setResultFlag x b c).i = s.i := (rfl)
@[simp] theorem setResultFlag_sp (s : State) (x : Reg) (b : Byte) (c : Bool) : (s.setResultFlag x b c).sp = s.sp := (rfl)
@[simp] theorem setResultFlag_stack (s : State) (x : Reg) (b : Byte) (c : Bool) : (s.setResultFlag x b c).stack = s.stack := (rfl)
@[simp] theorem setResultFlag_mem (s : State) (x : Reg) (b : Byte) (c : Bool) : (s.setResultFlag x b c).mem = s.mem := (rfl)
@[simp] theorem setResultFlag_fb (s : State) (x : Reg) (b : Byte) (c : Bool) : (s.setResultFlag x b c).fb = s.fb := (rfl)
@[simp] theorem setResultFlag_dt (s : State) (x : Reg) (b : Byte) (c : Bool) : (s.setResultFlag x b c).dt = s.dt := (rfl)
@[simp] theorem setResultFlag_st (s : State) (x : Reg) (b : Byte) (c : Bool) : (s.setResultFlag x b c).st = s.st := (rfl)
@[simp] theorem setResultFlag_diag (s : State) (x : Reg) (b : Byte) (c : Bool) : (s.setResultFlag x b c).diag = s.diag := (rfl)
@[simp] theorem setResultFlag_keys (s : State) (x : Reg) (b : Byte) (c : Bool) : (s.setResultFlag x b c).keys = s.keys := (rfl)
@[simp] theorem setResultFlag_rnd (s : State) (x : Reg) (b : Byte) (c : Bool) : (s.setResultFlag x b c).rnd = s.rnd := (rfl)
@[simp] theorem setResultFlag_inputs (s : State) (x : Reg) (b : Byte) (c : Bool) : (s.setResultFlag x b c).inputs = s.inputs := (rfl)
@[simp] theorem setResultFlag_draws (s : State) (x : Reg) (b : Byte) (c : Bool) : (s.setResultFlag x b c).draws = s.draws := (rfl)

/-! ### skipIf -/

@[simp] theorem skipIf_pc (s : State) (c : Bool) : (s.skipIf c).pc = if c then s.pc + 2 else s.pc := by
  cases c <;> rfl
@[simp] theorem v_skipIf (s : State) (c : Bool) (r : Reg) : (s.skipIf c).v r = s.v r := by
  cases c <;> rfl
@[simp] theorem skipIf_regs (s : State) (c : Bool) : (s.skipIf c).regs = s.regs := by
  cases c <;> rfl
@[simp] theorem skipIf_i (s : State) (c : Bool) : (s.skipIf c).i = s.i := by
  cases c <;> rfl
@[simp] theorem skipIf_sp (s : State) (c : Bool) : (s.skipIf c).sp = s.sp := by
  cases c <;> rfl
@[simp] theorem skipIf_stack (s : State) (c : Bool) : (s.skipIf c).stack = s.stack := by
  cases c <;> rfl
@[simp] theorem skipIf_mem (s : State) (c : Bool) : (s.skipIf c).mem = s.mem := by
  cases c <;> rfl
@[simp] theorem skipIf_fb (s : State) (c : Bool) : (s.skipIf c).fb = s.fb := by
  cases c <;> rfl
@[simp] theorem skipIf_dt (s : State) (c : Bool) : (s.skipIf c).dt = s.dt := by
  cases c <;> rfl
@[simp] theorem skipIf_st (s : State) (c : Bool) : (s.skipIf c).st = s.st := by
  cases c <;> rfl
@[simp] theorem skipIf_diag (s : State) (c : Bool) : (s.skipIf c).diag = s.diag := by
  cases c <;> rfl
@[simp] theorem skipIf_keys (s : State) (c : Bool) : (s.skipIf c).keys = s.keys := by
  cases c <;> rfl
@[simp] theorem skipIf_rnd (s : State) (c : Bool) : (s.skipIf c).rnd = s.rnd := by
  cases c <;> rfl
@[simp] theorem skipIf_inputs (s : State) (c : Bool) : (s.skipIf c).inputs = s.inputs := by
  cases c <;> rfl
@[simp] theorem skipIf_draws (s : State) (c : Bool) : (s.skipIf c).draws = s.draws := by
  cases c <;> rfl

/-! ### loadBlock -/

/-- The block load writes register `r` exactly when it lies in the range (43_index_memory.md R126). -/
@[simp] theorem v_loadBlock (s : State) (n : Nat) (h : n ≤ 16) (r : Reg) :
    (s.loadBlock n h).v r = if r.val < n then s.mem.read (s.i.toNat + r.val) else s.v r := by
  induction n with
  | zero => simp [State.loadBlock]
  | succ n ih =>
    have hr : (r = (⟨n, h⟩ : Reg)) ↔ r.val = n := Fin.ext_iff
    simp only [State.loadBlock, v_setV, ih, hr, State.effAddr]
    by_cases hn : r.val = n
    · simp [hn]
    · have : r.val < n + 1 ↔ r.val < n := by omega
      simp [hn, this]

@[simp] theorem loadBlock_pc (s : State) (n : Nat) (h : n ≤ 16) : (s.loadBlock n h).pc = s.pc := by
  induction n with
  | zero => rfl
  | succ n ih => simpa [State.loadBlock] using ih (by omega)
@[simp] theorem loadBlock_i (s : State) (n : Nat) (h : n ≤ 16) : (s.loadBlock n h).i = s.i := by
  induction n with
  | zero => rfl
  | succ n ih => simpa [State.loadBlock] using ih (by omega)
@[simp] theorem loadBlock_sp (s : State) (n : Nat) (h : n ≤ 16) : (s.loadBlock n h).sp = s.sp := by
  induction n with
  | zero => rfl
  | succ n ih => simpa [State.loadBlock] using ih (by omega)
@[simp] theorem loadBlock_stack (s : State) (n : Nat) (h : n ≤ 16) : (s.loadBlock n h).stack = s.stack := by
  induction n with
  | zero => rfl
  | succ n ih => simpa [State.loadBlock] using ih (by omega)
@[simp] theorem loadBlock_mem (s : State) (n : Nat) (h : n ≤ 16) : (s.loadBlock n h).mem = s.mem := by
  induction n with
  | zero => rfl
  | succ n ih => simpa [State.loadBlock] using ih (by omega)
@[simp] theorem loadBlock_fb (s : State) (n : Nat) (h : n ≤ 16) : (s.loadBlock n h).fb = s.fb := by
  induction n with
  | zero => rfl
  | succ n ih => simpa [State.loadBlock] using ih (by omega)
@[simp] theorem loadBlock_dt (s : State) (n : Nat) (h : n ≤ 16) : (s.loadBlock n h).dt = s.dt := by
  induction n with
  | zero => rfl
  | succ n ih => simpa [State.loadBlock] using ih (by omega)
@[simp] theorem loadBlock_st (s : State) (n : Nat) (h : n ≤ 16) : (s.loadBlock n h).st = s.st := by
  induction n with
  | zero => rfl
  | succ n ih => simpa [State.loadBlock] using ih (by omega)
@[simp] theorem loadBlock_diag (s : State) (n : Nat) (h : n ≤ 16) : (s.loadBlock n h).diag = s.diag := by
  induction n with
  | zero => rfl
  | succ n ih => simpa [State.loadBlock] using ih (by omega)
@[simp] theorem loadBlock_keys (s : State) (n : Nat) (h : n ≤ 16) : (s.loadBlock n h).keys = s.keys := by
  induction n with
  | zero => rfl
  | succ n ih => simpa [State.loadBlock] using ih (by omega)
@[simp] theorem loadBlock_rnd (s : State) (n : Nat) (h : n ≤ 16) : (s.loadBlock n h).rnd = s.rnd := by
  induction n with
  | zero => rfl
  | succ n ih => simpa [State.loadBlock] using ih (by omega)
@[simp] theorem loadBlock_inputs (s : State) (n : Nat) (h : n ≤ 16) : (s.loadBlock n h).inputs = s.inputs := by
  induction n with
  | zero => rfl
  | succ n ih => simpa [State.loadBlock] using ih (by omega)
@[simp] theorem loadBlock_draws (s : State) (n : Nat) (h : n ≤ 16) : (s.loadBlock n h).draws = s.draws := by
  induction n with
  | zero => rfl
  | succ n ih => simpa [State.loadBlock] using ih (by omega)

end Sys2Proof.Machine
end

