-- ==== Sys2Proof/Laws/Display.lean ====
section
/-! SUPPORT. The framebuffer controller: a toggle on every pixel (44_display.md R131), and where the columns of a sprite row
are drawn. -/

namespace Sys2Proof.Machine

@[simp] theorem pixelIndex_eq (x y : Nat) : pixelIndex x y = y * 64 + x := rfl

/-- There is no pixel beyond the grid. -/
theorem pixel_outside (f : Frame) (j : Nat) (h : 2048 ≤ j) : f.pixel j = false :=
  BitVec.getLsbD_of_ge f j h

/-- A toggle XORs its own pixel and leaves every other as it was. -/
theorem pixel_togglePixel (f : Frame) (i : Nat) (b : Bool) (hi : i < 2048) (j : Nat) :
    (togglePixel f i b).1.pixel j = if j = i then f.pixel i != b else f.pixel j := by
  have hb : ((BitVec.ofBool b).zeroExtend 2048 <<< i).getLsbD j = (decide (j = i) && b) := by
    rw [BitVec.getLsbD_shiftLeft, BitVec.getLsbD_setWidth]
    by_cases h : j = i
    · subst h
      simp [hi]
    · by_cases h2 : j < i
      · simp [h, h2]
      · have hz : j - i ≠ 0 := by omega
        simp [h, hz]
  simp only [togglePixel, Frame.pixel, BitVec.getLsbD_xor, hb]
  by_cases h : j = i
  · subst h
    simp
  · simp [h]

@[simp] theorem togglePixel_erased (f : Frame) (i : Nat) (b : Bool) : (togglePixel f i b).2 = (f.pixel i && b) := rfl

/-- On the right edge a column is clipped (44_display.md R134). -/
@[simp] theorem drawIndex_eq (x0 y col : Nat) : drawIndex x0 y col = if x0 + col < 64 then some (y * 64 + (x0 + col)) else none := by
  simp [drawIndex]

@[simp] theorem startColumn_eq (v : Byte) : startColumn v = v.toNat % 64 := by
  simp [startColumn]

@[simp] theorem startRow_eq (v : Byte) : startRow v = v.toNat % 32 := by
  simp [startRow]

/-- One column of a sprite row inside the grid: its own pixel is XORed, every other is left, and an erasure is kept. -/
theorem drawColumn_inside (x0 y : Nat) (byte : Byte) (p : Frame × Bool) (col : Nat) (hc : x0 + col < 64) (hy : y < 32) :
    (∀ j, (drawColumn x0 y byte p col).1.pixel j =
      if j = y * 64 + (x0 + col) then p.1.pixel j != byte.getLsbD (7 - col) else p.1.pixel j) ∧
    (drawColumn x0 y byte p col).2 = (p.2 || (p.1.pixel (y * 64 + (x0 + col)) && byte.getLsbD (7 - col))) := by
  have hi : y * 64 + (x0 + col) < 2048 := by omega
  simp only [drawColumn, drawIndex_eq, hc, if_true, togglePixel_erased]
  refine ⟨fun j => ?_, trivial⟩
  rw [pixel_togglePixel _ _ _ hi]
  split
  · rename_i h
    rw [h]
  · rfl

/-- A column right of the grid is not drawn. -/
theorem drawColumn_clipped (x0 y : Nat) (byte : Byte) (p : Frame × Bool) (col : Nat) (hc : ¬ x0 + col < 64) :
    drawColumn x0 y byte p col = p := by
  simp [drawColumn, hc]

end Sys2Proof.Machine
end

