-- ==== Sys2Proof/Laws/Memory.lean ====
section
/-! SUPPORT. The laws of memory (20_memory.md R41 to R43): a read after a write, addresses modulo 4096, and that every
operation keeps the canonical form. -/

namespace Sys2Proof.Machine

theorem physical_eq (a : Nat) : physical a = a % 4096 := rfl

/-! ### Entries -/

theorem lookup_put (m : Memory) (a : Nat) (b : Byte) (a' : Nat) :
    (m.put a b).lookup a' = if a = a' then some b else m.lookup a' := by
  induction m with
  | nil => simp [Memory.put, Memory.lookup]
  | cons e m ih =>
    obtain ⟨k, c⟩ := e
    simp only [Memory.put]
    split
    · simp [Memory.lookup]
    · split
      · rename_i h
        subst h
        simp only [Memory.lookup]
        split <;> rfl
      · rename_i h1 h2
        simp only [Memory.lookup, ih]
        split
        · rename_i h3
          simp [h3 ▸ h2]
        · rfl

theorem lookup_drop (m : Memory) (a a' : Nat) :
    (m.drop a).lookup a' = if a = a' then none else m.lookup a' := by
  induction m with
  | nil => simp [Memory.drop, Memory.lookup]
  | cons e m ih =>
    obtain ⟨k, c⟩ := e
    simp only [Memory.drop]
    split
    · rename_i h
      rw [ih]
      split
      · rfl
      · rename_i h2
        simp [Memory.lookup, h, h2]
    · rename_i h
      simp only [Memory.lookup, ih]
      split
      · rename_i h2
        have : ¬ a = a' := fun e => h (h2.trans e.symm)
        simp [this]
      · rfl

/-! ### Reads and writes -/

theorem read_write_physical (m : Memory) (a : Nat) (b : Byte) (a' : Nat) :
    (m.write a b).read a' = if physical a = physical a' then b else m.read a' := by
  simp only [Memory.write, Memory.read]
  by_cases h : b = unlisted (physical a)
  · rw [if_pos h, lookup_drop]
    by_cases h2 : physical a = physical a'
    · simp [h, h2]
    · simp only [if_neg h2]
  · rw [if_neg h, lookup_put]
    by_cases h2 : physical a = physical a'
    · simp [h2]
    · simp only [if_neg h2]

/-- A read after a write: the byte written at the same physical address, the old byte at every other. -/
theorem read_write (m : Memory) (a : Nat) (b : Byte) (a' : Nat) :
    (m.write a b).read a' = if a % 4096 = a' % 4096 then b else m.read a' :=
  read_write_physical m a b a'

@[simp] theorem read_write_same (m : Memory) (a : Nat) (b : Byte) : (m.write a b).read a = b := by
  simp [read_write]

theorem read_write_other (m : Memory) (a a' : Nat) (b : Byte) (h : a % 4096 ≠ a' % 4096) :
    (m.write a b).read a' = m.read a' := by
  simp [read_write, h]

/-- Only the low 12 bits of an address count (20_memory.md R41). -/
theorem read_congr (m : Memory) {a a' : Nat} (h : a % 4096 = a' % 4096) : m.read a = m.read a' := by
  have hp : physical a = physical a' := h
  simp only [Memory.read, hp]

@[simp] theorem read_mod (m : Memory) (a : Nat) : m.read (a % 4096) = m.read a :=
  read_congr m (Nat.mod_mod a 4096)

theorem read_nil (a : Nat) : Memory.read [] a = unlisted (a % 4096) := rfl

/-- Beyond the glyph table an unlisted byte is 0 (20_memory.md R46). -/
theorem unlisted_zero (a : Nat) (h : 80 ≤ a) : unlisted a = 0 := by
  unfold unlisted
  exact if_neg fun hf => Nat.not_lt.mpr h (show a < 80 from hf.2)

/-- A list written from `a` on: its k-th byte is read at `a + k`, and every other address reads as before, as long as the
list does not wrap onto itself. -/
theorem read_writeList (m : Memory) (a : Nat) (bs : List Byte) (hl : bs.length ≤ 4096) (a' : Nat) :
    (m.writeList a bs).read a' =
      if h : (a' % 4096 + (4096 - a % 4096)) % 4096 < bs.length
      then bs[(a' % 4096 + (4096 - a % 4096)) % 4096] else m.read a' := by
  induction bs generalizing m a with
  | nil => simp [Memory.writeList]
  | cons b bs ih =>
    simp only [List.length_cons] at hl
    simp only [Memory.writeList]
    rw [ih _ _ (by omega)]
    by_cases h0 : a % 4096 = a' % 4096
    · have hz : (a' % 4096 + (4096 - a % 4096)) % 4096 = 0 := by omega
      have hn : ¬ (a' % 4096 + (4096 - (a + 1) % 4096)) % 4096 < bs.length := by omega
      rw [dif_neg hn, dif_pos (by simp [hz]), read_write, if_pos h0]
      simp only [hz, List.getElem_cons_zero]
    · have hs : (a' % 4096 + (4096 - a % 4096)) % 4096 = (a' % 4096 + (4096 - (a + 1) % 4096)) % 4096 + 1 := by omega
      simp only [hs, read_write, h0, if_false, List.length_cons, Nat.add_lt_add_iff_right, List.getElem_cons_succ]

theorem read_writeList_at (m : Memory) (a : Nat) (bs : List Byte) (hl : bs.length ≤ 4096) (k : Nat) (hk : k < bs.length) :
    (m.writeList a bs).read (a + k) = bs[k] := by
  rw [read_writeList m a bs hl]
  have h : ((a + k) % 4096 + (4096 - a % 4096)) % 4096 = k := by omega
  simp only [h, hk, dite_true]

theorem read_writeList_outside (m : Memory) (a : Nat) (bs : List Byte) (hl : bs.length ≤ 4096) (a' : Nat)
    (h : ∀ k < bs.length, (a + k) % 4096 ≠ a' % 4096) : (m.writeList a bs).read a' = m.read a' := by
  rw [read_writeList m a bs hl]
  split
  · rename_i hlt
    exact absurd (by omega) (h _ hlt)
  · rfl

theorem read_write16 (m : Memory) (a : Nat) (w : Word) (a' : Nat) :
    (m.write16 a w).read a' =
      if (a + 1) % 4096 = a' % 4096 then w.lo else if a % 4096 = a' % 4096 then w.hi else m.read a' := by
  simp [Memory.write16, read_write]

/-! ### The canonical form -/

theorem wfFrom_mono {m : Memory} {lo lo' : Nat} (h : m.wfFrom lo = true) (hle : lo' ≤ lo) : m.wfFrom lo' = true := by
  cases m with
  | nil => rfl
  | cons e m =>
    obtain ⟨k, b⟩ := e
    simp only [Memory.wfFrom, Bool.and_eq_true, decide_eq_true_eq] at h ⊢
    exact ⟨⟨⟨by omega, h.1.1.2⟩, h.1.2⟩, h.2⟩

theorem wfFrom_put {m : Memory} {lo a : Nat} {b : Byte} (h : m.wfFrom lo = true) (hlo : lo ≤ a) (ha : a < 4096)
    (hb : b ≠ unlisted a) : (m.put a b).wfFrom lo = true := by
  induction m generalizing lo with
  | nil => simp [Memory.put, Memory.wfFrom, hlo, hb]; exact ha
  | cons e m ih =>
    obtain ⟨k, c⟩ := e
    have h' := h
    simp only [Memory.wfFrom, Bool.and_eq_true, decide_eq_true_eq] at h
    obtain ⟨⟨⟨h1, h2⟩, h3⟩, h4⟩ := h
    simp only [Memory.put]
    split
    · rename_i hk
      simp only [Memory.wfFrom, Bool.and_eq_true, decide_eq_true_eq]
      exact ⟨⟨⟨hlo, ha⟩, hb⟩, ⟨⟨hk, h2⟩, h3⟩, h4⟩
    · split
      · rename_i hk
        subst hk
        simp only [Memory.wfFrom, Bool.and_eq_true, decide_eq_true_eq]
        exact ⟨⟨⟨h1, ha⟩, hb⟩, h4⟩
      · simp only [Memory.wfFrom, Bool.and_eq_true, decide_eq_true_eq]
        exact ⟨⟨⟨h1, h2⟩, h3⟩, ih h4 (by omega)⟩

theorem wfFrom_drop {m : Memory} {lo a : Nat} (h : m.wfFrom lo = true) : (m.drop a).wfFrom lo = true := by
  induction m generalizing lo with
  | nil => rfl
  | cons e m ih =>
    obtain ⟨k, c⟩ := e
    simp only [Memory.wfFrom, Bool.and_eq_true, decide_eq_true_eq] at h
    obtain ⟨⟨⟨h1, h2⟩, h3⟩, h4⟩ := h
    simp only [Memory.drop]
    split
    · exact wfFrom_mono (ih h4) (by omega)
    · simp only [Memory.wfFrom, Bool.and_eq_true, decide_eq_true_eq]
      exact ⟨⟨⟨h1, h2⟩, h3⟩, ih h4⟩

/-- A write keeps the canonical form. -/
theorem wf_write {m : Memory} (h : m.wf = true) (a : Nat) (b : Byte) : (m.write a b).wf = true := by
  simp only [Memory.write]
  split
  · exact wfFrom_drop h
  · rename_i hb
    exact wfFrom_put h (Nat.zero_le _) (Nat.mod_lt a (by decide)) hb

theorem wf_writeList {m : Memory} (h : m.wf = true) (a : Nat) (bs : List Byte) : (m.writeList a bs).wf = true := by
  induction bs generalizing m a with
  | nil => exact h
  | cons b bs ih => exact ih (wf_write h a b) (a + 1)

theorem wf_write16 {m : Memory} (h : m.wf = true) (a : Nat) (w : Word) : (m.write16 a w).wf = true :=
  wf_write (wf_write h a w.hi) (a + 1) w.lo

theorem reset_mem_wf : State.reset.mem.wf = true := rfl

end Sys2Proof.Machine
end

