-- ==== Sys2Proof/Laws/Ops.lean ====
section
/-! SUPPORT. What each shared operation can do, said once: the call stack, the timers, the register block, the key choice, the
glyph and data addresses. -/

namespace Sys2Proof.Machine

/-! ### The call stack -/

/-- A push that succeeds finds a free cell, fills it with the address and counts it; it changes nothing else. -/
theorem push_eq_some {s t : State} {a : Word} (h : s.push a = some t) :
    ∃ hk : s.sp.val < 16,
      t = { s with stack := s.stack.set s.sp.val a hk, sp := ⟨s.sp.val + 1, by omega⟩ } := by
  unfold State.push at h
  split at h
  · rename_i hk
    exact ⟨hk, (Option.some.inj h).symm⟩
  · cases h

/-- A push fails exactly when all `STACK_DEPTH` cells are in use. -/
theorem push_eq_none {s : State} {a : Word} : s.push a = none ↔ s.sp.val = 16 := by
  simp only [State.push, config_stackDepth]
  split <;> simp <;> omega

/-- A pop that succeeds answers the cell below `SP` and uncounts it; it changes nothing else. -/
theorem pop_eq_some {s t : State} {a : Word} (h : s.pop = some (a, t)) :
    ∃ hk : 0 < s.sp.val, a = s.stack[s.sp.val - 1]'(by omega) ∧ t = { s with sp := ⟨s.sp.val - 1, by omega⟩ } := by
  unfold State.pop at h
  split at h
  · rename_i hk
    have e := Prod.mk.inj (Option.some.inj h)
    exact ⟨hk, e.1.symm, e.2.symm⟩
  · cases h

theorem pop_eq_none {s : State} : s.pop = none ↔ s.sp.val = 0 := by
  unfold State.pop
  split <;> simp <;> omega

/-! ### The timers -/

theorem countDownBy_eq (k : Nat) (t : Byte) : countDownBy k t = BitVec.ofNat 8 (t.toNat - k) := by
  unfold countDownBy
  split
  · rename_i h
    simp [h]
  · rfl

@[simp] theorem countDownBy_zero_left (t : Byte) : countDownBy 0 t = t := by
  simp [countDownBy_eq]

theorem countDown_eq (t : Byte) : countDown t = countDownBy 1 t := by
  revert t
  decide

theorem countDownBy_succ (k : Nat) (t : Byte) : countDownBy (k + 1) t = countDownBy k (countDown t) := by
  have := t.isLt
  rw [countDown_eq, countDownBy_eq, countDownBy_eq, countDownBy_eq]
  congr 1
  simp
  omega

@[simp] theorem ticks_zero (s : State) : ticks 0 s = s := by
  simp [ticks]

theorem ticks_succ (k : Nat) (s : State) : ticks (k + 1) s = ticks k (tick s) := by
  simp [ticks, tick, countDownBy_succ]

/-! ### Register blocks and addresses -/

@[simp] theorem regBlock_length (s : State) (x : Reg) : (s.regBlock x).length = x.val + 1 := by
  simp [State.regBlock]

theorem regBlock_getElem (s : State) (x : Reg) (k : Nat) (h : k < (s.regBlock x).length) :
    (s.regBlock x)[k] = s.v ⟨k, by rw [regBlock_length] at h; omega⟩ := by
  simp [State.regBlock]
  rfl

@[simp] theorem bcdDigits_length (v : Byte) : (bcdDigits v).length = 3 := rfl

@[simp] theorem blockIndex_eq (s : State) (x : Reg) : s.blockIndex x = s.i := rfl

@[simp] theorem effAddr_eq (s : State) (k : Nat) : s.effAddr k = s.i.toNat + k := rfl

@[simp] theorem toNat_dataAddr (s : State) (k : Nat) : (s.dataAddr k).toNat = (s.i.toNat + k) % 4096 := by
  simp [State.dataAddr]

@[simp] theorem toNat_addrWord (nnn : Addr) : (addrWord nnn).toNat = nnn.toNat := by
  simp [addrWord]
  omega

theorem toNat_glyphAddr (v : Byte) : (glyphAddr v).toNat = v.toNat * 5 := by
  have := v.isLt
  have h : v &&& 255#8 = v := BitVec.and_allOnes
  simp [glyphAddr, h]
  omega

@[simp] theorem shiftOperand_eq (s : State) (x y : Reg) : shiftOperand s x y = s.v y := rfl

/-! ### Keys -/

@[simp] theorem keyHeld_eq (s : State) (v : Byte) : s.keyHeld v = s.keys.getLsbD (v.toNat % 16) := by
  have h : ∀ v : Byte, (v &&& 0x0F).toNat = v.toNat % 16 := by decide
  rw [← h]
  rfl

theorem firstHeldKey_eq_find (s : State) : s.firstHeldKey = (List.range 16).find? fun k => s.keys.getLsbD k := rfl

/-- The key found is one of the sixteen, it is held, and no key below it is. -/
theorem firstHeldKey_eq_some {s : State} {k : Nat} (h : s.firstHeldKey = some k) :
    k < 16 ∧ s.keys.getLsbD k = true ∧ ∀ j < k, s.keys.getLsbD j = false := by
  rw [firstHeldKey_eq_find, List.find?_range_eq_some] at h
  exact ⟨List.mem_range.mp h.2.1, h.1, fun j hj => by simpa using h.2.2 j hj⟩

theorem firstHeldKey_eq_none {s : State} : s.firstHeldKey = none ↔ s.keys = 0 := by
  rw [firstHeldKey_eq_find, List.find?_range_eq_none]
  constructor
  · exact fun h => BitVec.eq_of_getLsbD_eq fun j hj => by simpa using h j hj
  · intro h k _
    simp [h]

end Sys2Proof.Machine
end

