-- ==== Sys2Proof/Laws/PerInstr.lean ====
section
/-! SUPPORT. The family SelectsRow: the word of an instruction selects exactly one row of the opcode map, its own
(30_encoding.md R66). One lemma per constructor. -/

namespace Sys2Proof.Laws.SelectsRow

/-- The encoding of `i` selects the row with the mnemonic of `i`, and no other. -/
def Statement (i : Instr) : Prop := (opcodeTable.filter (·.selects (encode i))).map (·.mnemonic) = [i.mnemonic]

/-- Row by row, the fields that a word is asked for. -/
theorem statement_iff (i : Instr) : Statement i ↔
    (opcodeTable.flatMap fun row => if encode i &&& row.mask = row.pattern then [row.mnemonic] else []) = [i.mnemonic] := by
  rw [Statement, selectedRows_eq]

theorem cls : Statement .cls := by
  rw [statement_iff]
  simp (disch := decide) [opcodeTable, opcodeTableFlow, opcodeTableAlu, opcodeTableMixed, opcodeTableF, encode, Instr.mnemonic,
    and_F000_iff, and_F00F_iff, and_F0FF_iff, and_FFFF_iff]

theorem ret : Statement .ret := by
  rw [statement_iff]
  simp (disch := decide) [opcodeTable, opcodeTableFlow, opcodeTableAlu, opcodeTableMixed, opcodeTableF, encode, Instr.mnemonic,
    and_F000_iff, and_F00F_iff, and_F0FF_iff, and_FFFF_iff]

theorem jp (nnn : Addr) : Statement (.jp nnn) := by
  rw [statement_iff]
  simp (disch := decide) [opcodeTable, opcodeTableFlow, opcodeTableAlu, opcodeTableMixed, opcodeTableF, encode, Instr.mnemonic,
    and_F000_iff, and_F00F_iff, and_F0FF_iff, and_FFFF_iff]

theorem call (nnn : Addr) : Statement (.call nnn) := by
  rw [statement_iff]
  simp (disch := decide) [opcodeTable, opcodeTableFlow, opcodeTableAlu, opcodeTableMixed, opcodeTableF, encode, Instr.mnemonic,
    and_F000_iff, and_F00F_iff, and_F0FF_iff, and_FFFF_iff]

theorem seImm (x : Reg) (kk : Byte) : Statement (.seImm x kk) := by
  rw [statement_iff]
  simp (disch := decide) [opcodeTable, opcodeTableFlow, opcodeTableAlu, opcodeTableMixed, opcodeTableF, encode, Instr.mnemonic,
    and_F000_iff, and_F00F_iff, and_F0FF_iff, and_FFFF_iff]

theorem sneImm (x : Reg) (kk : Byte) : Statement (.sneImm x kk) := by
  rw [statement_iff]
  simp (disch := decide) [opcodeTable, opcodeTableFlow, opcodeTableAlu, opcodeTableMixed, opcodeTableF, encode, Instr.mnemonic,
    and_F000_iff, and_F00F_iff, and_F0FF_iff, and_FFFF_iff]

theorem seReg (x y : Reg) : Statement (.seReg x y) := by
  rw [statement_iff]
  simp (disch := decide) [opcodeTable, opcodeTableFlow, opcodeTableAlu, opcodeTableMixed, opcodeTableF, encode, Instr.mnemonic,
    and_F000_iff, and_F00F_iff, and_F0FF_iff, and_FFFF_iff]

theorem ldImm (x : Reg) (kk : Byte) : Statement (.ldImm x kk) := by
  rw [statement_iff]
  simp (disch := decide) [opcodeTable, opcodeTableFlow, opcodeTableAlu, opcodeTableMixed, opcodeTableF, encode, Instr.mnemonic,
    and_F000_iff, and_F00F_iff, and_F0FF_iff, and_FFFF_iff]

theorem addImm (x : Reg) (kk : Byte) : Statement (.addImm x kk) := by
  rw [statement_iff]
  simp (disch := decide) [opcodeTable, opcodeTableFlow, opcodeTableAlu, opcodeTableMixed, opcodeTableF, encode, Instr.mnemonic,
    and_F000_iff, and_F00F_iff, and_F0FF_iff, and_FFFF_iff]

theorem ldReg (x y : Reg) : Statement (.ldReg x y) := by
  rw [statement_iff]
  simp (disch := decide) [opcodeTable, opcodeTableFlow, opcodeTableAlu, opcodeTableMixed, opcodeTableF, encode, Instr.mnemonic,
    and_F000_iff, and_F00F_iff, and_F0FF_iff, and_FFFF_iff]

theorem orReg (x y : Reg) : Statement (.orReg x y) := by
  rw [statement_iff]
  simp (disch := decide) [opcodeTable, opcodeTableFlow, opcodeTableAlu, opcodeTableMixed, opcodeTableF, encode, Instr.mnemonic,
    and_F000_iff, and_F00F_iff, and_F0FF_iff, and_FFFF_iff]

theorem andReg (x y : Reg) : Statement (.andReg x y) := by
  rw [statement_iff]
  simp (disch := decide) [opcodeTable, opcodeTableFlow, opcodeTableAlu, opcodeTableMixed, opcodeTableF, encode, Instr.mnemonic,
    and_F000_iff, and_F00F_iff, and_F0FF_iff, and_FFFF_iff]

theorem xorReg (x y : Reg) : Statement (.xorReg x y) := by
  rw [statement_iff]
  simp (disch := decide) [opcodeTable, opcodeTableFlow, opcodeTableAlu, opcodeTableMixed, opcodeTableF, encode, Instr.mnemonic,
    and_F000_iff, and_F00F_iff, and_F0FF_iff, and_FFFF_iff]

theorem addReg (x y : Reg) : Statement (.addReg x y) := by
  rw [statement_iff]
  simp (disch := decide) [opcodeTable, opcodeTableFlow, opcodeTableAlu, opcodeTableMixed, opcodeTableF, encode, Instr.mnemonic,
    and_F000_iff, and_F00F_iff, and_F0FF_iff, and_FFFF_iff]

theorem subReg (x y : Reg) : Statement (.subReg x y) := by
  rw [statement_iff]
  simp (disch := decide) [opcodeTable, opcodeTableFlow, opcodeTableAlu, opcodeTableMixed, opcodeTableF, encode, Instr.mnemonic,
    and_F000_iff, and_F00F_iff, and_F0FF_iff, and_FFFF_iff]

theorem shrReg (x y : Reg) : Statement (.shrReg x y) := by
  rw [statement_iff]
  simp (disch := decide) [opcodeTable, opcodeTableFlow, opcodeTableAlu, opcodeTableMixed, opcodeTableF, encode, Instr.mnemonic,
    and_F000_iff, and_F00F_iff, and_F0FF_iff, and_FFFF_iff]

theorem subnReg (x y : Reg) : Statement (.subnReg x y) := by
  rw [statement_iff]
  simp (disch := decide) [opcodeTable, opcodeTableFlow, opcodeTableAlu, opcodeTableMixed, opcodeTableF, encode, Instr.mnemonic,
    and_F000_iff, and_F00F_iff, and_F0FF_iff, and_FFFF_iff]

theorem shlReg (x y : Reg) : Statement (.shlReg x y) := by
  rw [statement_iff]
  simp (disch := decide) [opcodeTable, opcodeTableFlow, opcodeTableAlu, opcodeTableMixed, opcodeTableF, encode, Instr.mnemonic,
    and_F000_iff, and_F00F_iff, and_F0FF_iff, and_FFFF_iff]

theorem sneReg (x y : Reg) : Statement (.sneReg x y) := by
  rw [statement_iff]
  simp (disch := decide) [opcodeTable, opcodeTableFlow, opcodeTableAlu, opcodeTableMixed, opcodeTableF, encode, Instr.mnemonic,
    and_F000_iff, and_F00F_iff, and_F0FF_iff, and_FFFF_iff]

theorem ldI (nnn : Addr) : Statement (.ldI nnn) := by
  rw [statement_iff]
  simp (disch := decide) [opcodeTable, opcodeTableFlow, opcodeTableAlu, opcodeTableMixed, opcodeTableF, encode, Instr.mnemonic,
    and_F000_iff, and_F00F_iff, and_F0FF_iff, and_FFFF_iff]

theorem jpV0 (nnn : Addr) : Statement (.jpV0 nnn) := by
  rw [statement_iff]
  simp (disch := decide) [opcodeTable, opcodeTableFlow, opcodeTableAlu, opcodeTableMixed, opcodeTableF, encode, Instr.mnemonic,
    and_F000_iff, and_F00F_iff, and_F0FF_iff, and_FFFF_iff]

theorem rnd (x : Reg) (kk : Byte) : Statement (.rnd x kk) := by
  rw [statement_iff]
  simp (disch := decide) [opcodeTable, opcodeTableFlow, opcodeTableAlu, opcodeTableMixed, opcodeTableF, encode, Instr.mnemonic,
    and_F000_iff, and_F00F_iff, and_F0FF_iff, and_FFFF_iff]

theorem drw (x y : Reg) (n : Nibble) : Statement (.drw x y n) := by
  rw [statement_iff]
  simp (disch := decide) [opcodeTable, opcodeTableFlow, opcodeTableAlu, opcodeTableMixed, opcodeTableF, encode, Instr.mnemonic,
    and_F000_iff, and_F00F_iff, and_F0FF_iff, and_FFFF_iff]

theorem skp (x : Reg) : Statement (.skp x) := by
  rw [statement_iff]
  simp (disch := decide) [opcodeTable, opcodeTableFlow, opcodeTableAlu, opcodeTableMixed, opcodeTableF, encode, Instr.mnemonic,
    and_F000_iff, and_F00F_iff, and_F0FF_iff, and_FFFF_iff]

theorem sknp (x : Reg) : Statement (.sknp x) := by
  rw [statement_iff]
  simp (disch := decide) [opcodeTable, opcodeTableFlow, opcodeTableAlu, opcodeTableMixed, opcodeTableF, encode, Instr.mnemonic,
    and_F000_iff, and_F00F_iff, and_F0FF_iff, and_FFFF_iff]

theorem ldVxDt (x : Reg) : Statement (.ldVxDt x) := by
  rw [statement_iff]
  simp (disch := decide) [opcodeTable, opcodeTableFlow, opcodeTableAlu, opcodeTableMixed, opcodeTableF, encode, Instr.mnemonic,
    and_F000_iff, and_F00F_iff, and_F0FF_iff, and_FFFF_iff]

theorem ldVxK (x : Reg) : Statement (.ldVxK x) := by
  rw [statement_iff]
  simp (disch := decide) [opcodeTable, opcodeTableFlow, opcodeTableAlu, opcodeTableMixed, opcodeTableF, encode, Instr.mnemonic,
    and_F000_iff, and_F00F_iff, and_F0FF_iff, and_FFFF_iff]

theorem ldDtVx (x : Reg) : Statement (.ldDtVx x) := by
  rw [statement_iff]
  simp (disch := decide) [opcodeTable, opcodeTableFlow, opcodeTableAlu, opcodeTableMixed, opcodeTableF, encode, Instr.mnemonic,
    and_F000_iff, and_F00F_iff, and_F0FF_iff, and_FFFF_iff]

theorem ldStVx (x : Reg) : Statement (.ldStVx x) := by
  rw [statement_iff]
  simp (disch := decide) [opcodeTable, opcodeTableFlow, opcodeTableAlu, opcodeTableMixed, opcodeTableF, encode, Instr.mnemonic,
    and_F000_iff, and_F00F_iff, and_F0FF_iff, and_FFFF_iff]

theorem addIVx (x : Reg) : Statement (.addIVx x) := by
  rw [statement_iff]
  simp (disch := decide) [opcodeTable, opcodeTableFlow, opcodeTableAlu, opcodeTableMixed, opcodeTableF, encode, Instr.mnemonic,
    and_F000_iff, and_F00F_iff, and_F0FF_iff, and_FFFF_iff]

theorem ldFVx (x : Reg) : Statement (.ldFVx x) := by
  rw [statement_iff]
  simp (disch := decide) [opcodeTable, opcodeTableFlow, opcodeTableAlu, opcodeTableMixed, opcodeTableF, encode, Instr.mnemonic,
    and_F000_iff, and_F00F_iff, and_F0FF_iff, and_FFFF_iff]

theorem ldBVx (x : Reg) : Statement (.ldBVx x) := by
  rw [statement_iff]
  simp (disch := decide) [opcodeTable, opcodeTableFlow, opcodeTableAlu, opcodeTableMixed, opcodeTableF, encode, Instr.mnemonic,
    and_F000_iff, and_F00F_iff, and_F0FF_iff, and_FFFF_iff]

theorem storeRegs (x : Reg) : Statement (.storeRegs x) := by
  rw [statement_iff]
  simp (disch := decide) [opcodeTable, opcodeTableFlow, opcodeTableAlu, opcodeTableMixed, opcodeTableF, encode, Instr.mnemonic,
    and_F000_iff, and_F00F_iff, and_F0FF_iff, and_FFFF_iff]

theorem loadRegs (x : Reg) : Statement (.loadRegs x) := by
  rw [statement_iff]
  simp (disch := decide) [opcodeTable, opcodeTableFlow, opcodeTableAlu, opcodeTableMixed, opcodeTableF, encode, Instr.mnemonic,
    and_F000_iff, and_F00F_iff, and_F0FF_iff, and_FFFF_iff]

end Sys2Proof.Laws.SelectsRow
end

