-- ==== Sys2Proof/Laws/Step.lean ====
section
/-! SUPPORT. What the execute phase of any instruction can do to memory's canonical form and to the diagnostic output, said
once for all instructions. -/

namespace Sys2Proof.Machine

/-- Every nibble is one of the sixteen that have a family (30_encoding.md R64). -/
theorem nibble_cases : ∀ f : Nibble, f = 0x0#4 ∨ f = 0x1#4 ∨ f = 0x2#4 ∨ f = 0x3#4 ∨ f = 0x4#4 ∨ f = 0x5#4 ∨ f = 0x6#4 ∨
    f = 0x7#4 ∨ f = 0x8#4 ∨ f = 0x9#4 ∨ f = 0xA#4 ∨ f = 0xB#4 ∨ f = 0xC#4 ∨ f = 0xD#4 ∨ f = 0xE#4 ∨ f = 0xF#4 := by decide

/-- `pc - 2` after the fetch phase is the address the instruction was fetched from. -/
@[simp] theorem pc_back (a : Word) : a + 2#16 - 2#16 = a := by
  rw [BitVec.add_sub_cancel]

/-- The execute phase keeps memory canonical, and it either leaves `DIAG` alone or its whole effect is one raised fault. -/
def ExecEffect (i : Instr) (s t : State) : Prop :=
  (s.mem.wf = true → t.mem.wf = true) ∧
  (t.diag = s.diag ∨ (i = .ret ∧ t = raiseFault .stackUnderflow (encode i) s) ∨
    ((∃ nnn, i = .call nnn) ∧ t = raiseFault .stackOverflow (encode i) s))

/-- An update of registers, `pc`, `I`, the framebuffer or the timers alone has such an effect. -/
theorem execEffect_of_same {i : Instr} {s t : State} (hm : t.mem = s.mem) (hd : t.diag = s.diag) : ExecEffect i s t :=
  ⟨fun h => hm ▸ h, .inl hd⟩

theorem execRet_effect {s t : State} (h : execRet s = .next t) : ExecEffect .ret s t := by
  unfold execRet at h
  split at h
  · rename_i a u hp
    obtain ⟨_, _, hu⟩ := pop_eq_some hp
    cases h
    exact execEffect_of_same (by rw [hu]) (by rw [hu])
  · cases h
    exact ⟨fun h => h, .inr (.inl ⟨rfl, rfl⟩)⟩

theorem execCall_effect {nnn : Addr} {s t : State} (h : execCall nnn s = .next t) : ExecEffect (.call nnn) s t := by
  unfold execCall at h
  split at h
  · rename_i u hp
    obtain ⟨_, hu⟩ := push_eq_some hp
    cases h
    exact execEffect_of_same (by rw [hu]) (by rw [hu])
  · cases h
    exact ⟨fun h => h, .inr (.inr ⟨⟨nnn, rfl⟩, rfl⟩)⟩

theorem execLdVxK_effect {x : Reg} {s t : State} (h : execLdVxK x s = .next t) : ExecEffect (.ldVxK x) s t := by
  cases h
  cases s.firstHeldKey <;> exact execEffect_of_same rfl rfl

/-- Every instruction has such an effect. -/
theorem exec_effect {i : Instr} {s t : State} (h : exec i s = .next t) : ExecEffect i s t := by
  cases i
  case ret => exact execRet_effect h
  case call nnn => exact execCall_effect h
  case ldVxK x => exact execLdVxK_effect h
  case ldBVx x =>
    cases h
    exact ⟨fun hw => wf_writeList hw _ _, .inl rfl⟩
  case storeRegs x =>
    cases h
    exact ⟨fun hw => wf_writeList hw _ _, .inl rfl⟩
  case loadRegs x =>
    cases h
    exact execEffect_of_same (loadBlock_mem s _ _) (loadBlock_diag s _ _)
  case skp x =>
    cases h
    exact execEffect_of_same (skipIf_mem s _) (skipIf_diag s _)
  case sknp x =>
    cases h
    exact execEffect_of_same (skipIf_mem s _) (skipIf_diag s _)
  case seImm x kk =>
    cases h
    exact execEffect_of_same (skipIf_mem s _) (skipIf_diag s _)
  case sneImm x kk =>
    cases h
    exact execEffect_of_same (skipIf_mem s _) (skipIf_diag s _)
  case seReg x y =>
    cases h
    exact execEffect_of_same (skipIf_mem s _) (skipIf_diag s _)
  case sneReg x y =>
    cases h
    exact execEffect_of_same (skipIf_mem s _) (skipIf_diag s _)
  all_goals
    cases h
    exact execEffect_of_same rfl rfl

end Sys2Proof.Machine
end

