-- ==== Sys2Proof/Tests/Slice0.lean ====
section
/-! SUPPORT. Tests of the model on fixed values. The expected results are the vectors S, T and P of spec/95_test_vectors.md (named in each
comment), or hand calculation from the rule named. The last part gives, for every statement of
Sys2Proof/Certificates/Slice0/Obligations.lean that has hypotheses, a state and operands that meet them. -/

namespace Sys2Proof.Machine.Tests

/-- The launch state with one word at 0x200 (spec/95_test_vectors.md, "Launch state"). -/
def launch (w : Word) : State := placeWord State.reset w

/-- The next state of an outcome, if it is one. -/
def nextOf : Host.Outcome State Fault Refusal → Option State
  | .next t => some t
  | .fault _ => none
  | .refused _ => none

/-- One step event on the launch state of `w`, prepared by `prep`. -/
def stepOn (w : Word) (prep : State → State) (keys : BitVec 16) (rnd : Byte) : Option State :=
  nextOf (transition (.step keys rnd) (prep (launch w)))

/-- Registers set in a list. -/
def withRegs : List (Reg × Byte) → State → State
  | [], s => s
  | (r, b) :: rest, s => withRegs rest (s.setV r b)

def run (w : Word) (regs : List (Reg × Byte)) : Option State := stepOn w (withRegs regs) 0 0

/-- `n` valid stack cells, each 0x0111. -/
def withStack (n : Fin 17) (s : State) : State := { s with sp := n, stack := Vector.replicate 16 0x0111 }

/-- The framebuffer with these pixels lit. -/
def litFrame (l : List Nat) : Frame := l.foldl (fun f i => f ||| 1#2048 <<< i) 0

/-- Whether an outcome is a next state. -/
def isNext : Host.Outcome State Fault Refusal → Bool
  | .next _ => true
  | .fault _ => false
  | .refused _ => false

/-! ### What is ill formed is refused (WellFormed.lean) -/

/-- R68: reserved words of each group. -/
theorem test_reserved_words_illFormed :
    [0x0000#16, 0x00E1, 0x0123, 0x5121, 0x8008, 0x800F, 0x9125, 0xE000, 0xE09F, 0xF000, 0xF1FF].all
      (fun w => !Word.wellFormed w) = true := by decide

theorem test_defined_words_wellFormed :
    [0x00E0#16, 0x00EE, 0x5120, 0x800E, 0x9120, 0xE09E, 0xF165].all (fun w => Word.wellFormed w) = true := by decide

/-- R47: 3585 bytes do not fit. -/
theorem test_image_too_long_illFormed : imageWellFormed (List.replicate 3585 0) = false := by
  unfold imageWellFormed
  rw [List.length_replicate]
  decide

theorem test_image_full_wellFormed : imageWellFormed (List.replicate 3584 0) = true := by
  unfold imageWellFormed
  rw [List.length_replicate]
  decide

/-! ### Decoding: the words of 30_encoding.md R66, written out bit by bit, one for every constructor -/

theorem test_decode_flow :
    [0b0000000011100000, 0b0000000011101110, 0b0001101010111100, 0b0010001100000000, 0b0011001101000010,
      0b0100001101000010, 0b0101000100100000, 0b1001000100100000, 0b1011001100000000].map (decodeTableWord 16) =
    [some .cls, some .ret, some (.jp 0xABC), some (.call 0x300), some (.seImm 3 0x42),
      some (.sneImm 3 0x42), some (.seReg 1 2), some (.sneReg 1 2), some (.jpV0 0x300)] := by decide

theorem test_decode_immediate :
    [0b0110000000000101, 0b0111000000000011, 0b1100000100001111].map (decodeTableWord 16) =
    [some (.ldImm 0 5), some (.addImm 0 3), some (.rnd 1 0x0F)] := by decide

theorem test_decode_alu :
    [0b1000000100100000, 0b1000000100100001, 0b1000000100100010, 0b1000000100100011, 0b1000000100100100,
      0b1000000100100101, 0b1000000100100110, 0b1000000100100111, 0b1000000100101110].map (decodeTableWord 16) =
    [some (.ldReg 1 2), some (.orReg 1 2), some (.andReg 1 2), some (.xorReg 1 2), some (.addReg 1 2),
      some (.subReg 1 2), some (.shrReg 1 2), some (.subnReg 1 2), some (.shlReg 1 2)] := by decide

theorem test_decode_index_display :
    [0b1010001000001010, 0b1111000100011110, 0b1111000000101001, 0b1111000000110011, 0b1111001001010101,
      0b1111001001100101, 0b1101000100100101].map (decodeTableWord 16) =
    [some (.ldI 0x20A), some (.addIVx 1), some (.ldFVx 0), some (.ldBVx 0), some (.storeRegs 2),
      some (.loadRegs 2), some (.drw 1 2 5)] := by decide

theorem test_decode_keypad_timers :
    [0b1110000110011110, 0b1110000110100001, 0b1111001100001010, 0b1111001000000111, 0b1111000000010101,
      0b1111010100011000].map (decodeTableWord 16) =
    [some (.skp 1), some (.sknp 1), some (.ldVxK 3), some (.ldVxDt 2), some (.ldDtVx 0), some (.ldStVx 5)] := by decide

/-- T28, T69, T87, T103, T126: reserved words decode to nothing. -/
theorem test_decode_reserved :
    [0x5121, 0x9125, 0x8008, 0x800D, 0xF000, 0xF075, 0x00E1, 0x0000, 0xE000, 0xE1A0].map (decodeTableWord 16) =
    [none, none, none, none, none, none, none, none, none, none] := by decide

/-! ### Fetch and faults -/

/-- T2: a word across 0xFFF and 0x000. -/
theorem test_fetch_wraps : (stepOn 0 (fun s => placeWord { s with pc := 0x0FFF } 0x6A55) 0 0).map
    (fun t => (t.v 10, t.pc)) = some (0x55, 0x1001) := by decide

/-- T28. -/
theorem test_reserved_records : (run 0x5121 []).map (fun t => (t.pc, t.diag)) =
    some (0x0202, [⟨.unhandledOperand, 0x0200, 0x5121⟩]) := by decide

/-- The step of the interface runs the placed word first, whatever its inputs are: one word for every row of the table. -/
theorem test_step_runs_first :
    ([0x00E0, 0x00EE, 0x1ABC, 0x2300, 0x3342, 0x4342, 0x5120, 0x6005, 0x7003, 0x8120, 0x8121, 0x8122, 0x8123, 0x8124, 0x8125,
      0x8126, 0x8127, 0x812E, 0x9120, 0xA20A, 0xB300, 0xC10F, 0xD125, 0xE19E, 0xE1A1, 0xF207, 0xF30A, 0xF015, 0xF518, 0xF11E,
      0xF029, 0xF033, 0xF255, 0xF265].all fun w => isNext (step (State.reset.withFetchWord 16 w))) = true := by decide

/-! ### Control flow -/

/-- T16. -/
theorem test_ret : (stepOn 0x00EE (fun s => { withStack 2 s with stack := (Vector.replicate 16 0x0222).set 1 0x0456 }) 0 0).map
    (fun t => (t.pc, t.sp)) = some (0x0456, 1) := by decide

/-- T15. -/
theorem test_ret_underflow : (run 0x00EE []).map (fun t => (t.pc, t.sp, t.diag)) =
    some (0x0202, 0, [⟨.stackUnderflow, 0x0200, 0x00EE⟩]) := by decide

/-- T10. -/
theorem test_jp : (run 0x1ABC []).map (·.pc) = some 0x0ABC := by decide

/-- T13: the sixteenth push. -/
theorem test_call_last : (stepOn 0x2300 (withStack 15) 0 0).map (fun t => (t.pc, t.sp, t.stack[15])) =
    some (0x0300, 16, 0x0202) := by decide

/-- T14. -/
theorem test_call_overflow : (stepOn 0x2300 (withStack 16) 0 0).map (fun t => (t.pc, t.sp, t.diag)) =
    some (0x0202, 16, [⟨.stackOverflow, 0x0200, 0x2300⟩]) := by decide

/-- T17, T18. -/
theorem test_seImm : [0x3342#16, 0x3343].map (fun w => (run w [(3, 0x42)]).map (·.pc)) = [some 0x0204, some 0x0202] := by
  decide

/-- T19, T20. -/
theorem test_sneImm : [0x4342#16, 0x4343].map (fun w => (run w [(3, 0x42)]).map (·.pc)) = [some 0x0202, some 0x0204] := by
  decide

/-- T21, T22. -/
theorem test_seReg : [7#8, 8].map (fun b => (run 0x5120 [(1, 7), (2, b)]).map (·.pc)) = [some 0x0204, some 0x0202] := by
  decide

/-- T24, T25. -/
theorem test_sneReg : [8#8, 7].map (fun b => (run 0x9120 [(1, 7), (2, b)]).map (·.pc)) = [some 0x0204, some 0x0202] := by
  decide

/-- T27: not reduced to 12 bits. -/
theorem test_jpV0 : (run 0xBFFF [(0, 0xFF)]).map (·.pc) = some 0x10FE := by decide

/-! ### Immediate -/

/-- T30. -/
theorem test_ldImm : (run 0x6FAB []).map (·.v 15) = some 0xAB := by decide

/-- T32: no overflow flag. -/
theorem test_addImm : (run 0x7080 [(0, 0x80), (15, 1)]).map (fun t => (t.v 0, t.v 15)) = some (0x00, 0x01) := by decide

/-- T34. -/
theorem test_rnd : (stepOn 0xC10F (fun s => s) 0 0xA7).map (·.v 1) = some 0x07 := by decide

/-! ### ALU -/

/-- T40. -/
theorem test_ldReg : (run 0x8120 [(1, 1), (2, 0x5A), (15, 1)]).map (fun t => (t.v 1, t.v 15)) = some (0x5A, 0x01) := by
  decide

/-- T41. -/
theorem test_or : (run 0x8121 [(1, 0xF0), (2, 0x0F), (15, 1)]).map (fun t => (t.v 1, t.v 15)) = some (0xFF, 0x00) := by
  decide

/-- T44: the flag is written last. -/
theorem test_or_flag_last : (run 0x8FF1 [(15, 5)]).map (·.v 15) = some 0x00 := by decide

/-- T42. -/
theorem test_and : (run 0x8122 [(1, 0xF0), (2, 0x3C), (15, 1)]).map (fun t => (t.v 1, t.v 15)) = some (0x30, 0x00) := by
  decide

/-- T45: the old flag is the operand. -/
theorem test_xor : (run 0x81F3 [(1, 0x0F), (15, 1)]).map (fun t => (t.v 1, t.v 15)) = some (0x0E, 0x00) := by decide

/-- T46. -/
theorem test_add : (run 0x8014 [(0, 0xFF), (1, 2)]).map (fun t => (t.v 0, t.v 15)) = some (0x01, 0x01) := by decide

/-- T49: the sum is lost in `VF`. -/
theorem test_add_into_flag : (run 0x8FE4 [(15, 0xF0), (14, 0x20)]).map (fun t => (t.v 15, t.v 14)) = some (0x01, 0x20) := by
  decide

/-- T52. -/
theorem test_sub_borrow : (run 0x8015 [(0, 1), (1, 2)]).map (fun t => (t.v 0, t.v 15)) = some (0xFF, 0x00) := by decide

/-- T53. -/
theorem test_sub_equal : (run 0x8015 [(0, 5), (1, 5)]).map (fun t => (t.v 0, t.v 15)) = some (0x00, 0x01) := by decide

/-- T60. -/
theorem test_shr : (run 0x8126 [(1, 0xAA), (2, 0x81)]).map (fun t => (t.v 1, t.v 2, t.v 15)) = some (0x40, 0x81, 0x01) := by
  decide

/-- T65. -/
theorem test_shr_of_flag : (run 0x80F6 [(0, 9), (15, 3)]).map (fun t => (t.v 0, t.v 15)) = some (0x01, 0x01) := by decide

/-- T58. -/
theorem test_subn : (run 0x8017 [(0, 0x0A), (1, 3)]).map (fun t => (t.v 0, t.v 15)) = some (0xF9, 0x00) := by decide

/-- T66. -/
theorem test_shl : (run 0x812E [(2, 0x81)]).map (fun t => (t.v 1, t.v 15)) = some (0x02, 0x01) := by decide

/-! ### Index and memory -/

/-- S8. -/
theorem test_ldI : (run 0xA20A []).map (·.i) = some 0x020A := by decide

/-- T73. -/
theorem test_addI_wraps : (stepOn 0xF11E (fun s => { s.setV 1 1 with i := 0xFFFF }) 0 0).map (fun t => (t.i, t.v 15)) =
    some (0x0000, 0x00) := by decide

/-- T74, T75. -/
theorem test_ldF : [0x0A#8, 0x0F, 0xFF].map (fun b => (run 0xF029 [(0, b)]).map (·.i)) =
    [some 0x0032, some 0x004B, some 0x04FB] := by decide

/-- T79: the digits wrap from 0xFFF to 0x000. -/
theorem test_ldB_wraps : (stepOn 0xF033 (fun s => { s.setV 0 0xFF with i := 0x0FFE }) 0 0).map
    (fun t => (t.mem.read 0xFFE, t.mem.read 0xFFF, t.mem.read 0x000, t.mem.read 0x001)) =
    some (0x02, 0x05, 0x05, 0x90) := by decide

/-- T80. -/
theorem test_storeRegs : (stepOn 0xF255 (fun s => { withRegs [(0, 0x11), (1, 0x22), (2, 0x33), (3, 0x44)] s with i := 0x0400 }) 0 0).map
    (fun t => ([0x400, 0x401, 0x402, 0x403].map t.mem.read, t.i)) = some ([0x11, 0x22, 0x33, 0x00], 0x0400) := by decide

/-- T83: the sixteenth byte of the glyph table goes to `VF` as data. -/
theorem test_loadRegs : (run 0xFF65 []).map (fun t => [t.v 0, t.v 1, t.v 4, t.v 5, t.v 10, t.v 14, t.v 15]) =
    some [0xF0, 0x90, 0xF0, 0x20, 0xF0, 0xF0, 0xF0] := by decide

/-- A byte written back to what it was at reset leaves nothing listed (canonical form). -/
theorem test_write_back_unlists : (Memory.write (Memory.write [] 0x005 0x77) 0x1005 0x20) = [] := by decide

/-! ### Display -/

/-- T90. -/
theorem test_cls : (stepOn 0x00E0 (fun s => { s with fb := BitVec.allOnes 2048 }) 0 0).map (·.fb) = some 0 := by
  decide +kernel

/-- T91: the digit 1. -/
theorem test_drw_glyph : (stepOn 0xD015 (fun s => { s with i := 0x0005 }) 0 0).map (fun t => (t.fb, t.v 15)) =
    some (litFrame [2, 65, 66, 130, 194, 257, 258, 259], 0) := by decide +kernel

/-- T101 with T99's place: clipped at the right and bottom edges, one pixel erased. -/
theorem test_drw_clipped : (stepOn 0xD125 (fun s => { withRegs [(1, 60), (2, 30)] s with i := 0x0023, fb := litFrame [2047] }) 0 0).map
    (fun t => (t.fb, t.v 15)) = some (litFrame [1980, 1981, 1982, 1983], 1) := by decide +kernel

/-! ### Keypad and timers -/

/-- T114, T116. -/
theorem test_skp : [(0x1A#8, 0x0400#16), (0x05, 0x0050)].map
    (fun p => (stepOn 0xE19E (fun s => s.setV 1 p.1) p.2 0).map (·.pc)) = [some 0x0204, some 0x0202] := by decide

/-- T112, T113. -/
theorem test_sknp : [0x0020#16, 0x0000].map (fun k => (stepOn 0xE1A1 (fun s => s.setV 1 5) k 0).map (·.pc)) =
    [some 0x0202, some 0x0204] := by decide

/-- T117. -/
theorem test_ldVxK_waits : (run 0xF30A []).map (fun t => (t.pc, t.v 3)) = some (0x0200, 0x00) := by decide

/-- T118. -/
theorem test_ldVxK_lowest : (stepOn 0xF30A (fun s => s) 0x0210 0).map (fun t => (t.pc, t.v 3)) = some (0x0202, 0x04) := by
  decide

/-- T120. -/
theorem test_ldVxDt : (stepOn 0xF207 (fun s => { s with dt := 0x3C }) 0 0).map (fun t => (t.v 2, t.dt)) = some (0x3C, 0x3C) := by
  decide

/-- T121. -/
theorem test_ldDtVx : (run 0xF015 [(0, 3)]).map (fun t => (t.dt, t.st)) = some (0x03, 0x00) := by decide

/-- T122. -/
theorem test_ldStVx : (run 0xF518 [(5, 0x1E)]).map (fun t => (t.dt, t.st)) = some (0x00, 0x1E) := by decide

/-- T123, T124: a tick. -/
theorem test_tick : [(2#8, 0#8), (0, 1)].map (fun p => let t := tick { State.reset with dt := p.1, st := p.2 }; (t.dt, t.st)) =
    [(1, 0), (0, 0)] := by decide

/-- S5: 200, then 60 ticks. -/
theorem test_ticks : (ticks 60 { State.reset with dt := 200 }).dt = 140 := by decide

/-- A given schedule: the input at the head of the queue is the one the step takes. Three ticks come before `F107`
(P5, schedule A, in small). -/
theorem test_scheduled_step :
    (nextOf (step { launch 0xF107 with dt := 3, inputs := [⟨2, 0x0001, 0x7F⟩, ⟨0, 0, 0⟩] })).map
      (fun t => (t.v 1, t.dt, t.keys, t.rnd)) = some (1, 1, 0x0001, 0x7F) := by decide

/-! ### Witnesses: for each statement with hypotheses, values that meet them -/

/-- EncodeDecode, StepEventRunsWord, StepRunsDecoded: a word that decodes, at `pc`. -/
theorem test_witness_decodes : decode (Word.ofBytes ((launch 0x6005).mem.read 0x200) ((launch 0x6005).mem.read 0x201)) =
    .ok (.ldImm 0 5) ∧ (launch 0x6005).pc.toNat = 0x200 := by
  exact ⟨rfl, rfl⟩

/-- RejectedIsReserved, StepEventRunsWord (second clause): a word that is rejected, at `pc`. -/
theorem test_witness_rejected : decode (State.reset.mem.read16 State.reset.pc.toNat) = .error (.unhandledOperand 0x0000) := by
  rfl

/-- FaultHasNoOtherEffect, DiagAppendOnly: a step that adds to `DIAG`. -/
theorem test_witness_fault : ∃ t, transition (.step 0 0) State.reset = .next t ∧ t.diag ≠ State.reset.diag := by
  exact ⟨_, rfl, by decide⟩

/-- DiagAppendOnly, StepKeepsInv, EventsKeepInv: a step and an event from a state that has the invariant. -/
theorem test_witness_inv : Inv State.reset ∧ (∃ t, step State.reset = .next t) ∧
    (∃ t, transition (.loadImage [0x12, 0x00]) State.reset = .next t) ∧ ∃ t, transition .tick State.reset = .next t := by
  exact ⟨⟨rfl, by simp [State.reset]⟩, ⟨_, rfl⟩, ⟨_, rfl⟩, ⟨_, rfl⟩⟩

/-- FaultsStayVisible: a history without a reset that ends in a state; ReachableInv: that state is reachable. -/
theorem test_witness_history : Event.reset ∉ [Event.loadImage [0x12, 0x00], .tick, .step 0 0] ∧
    ∃ t, runEvents [.loadImage [0x12, 0x00], .tick, .step 0 0] State.reset = .next t ∧ Reachable t := by
  exact ⟨by decide, _, rfl, [.loadImage [0x12, 0x00], .tick, .step 0 0], rfl⟩

/-- RegisterWriters: register 15 with an instruction that writes no flag, and another register with one that does. -/
theorem test_witness_registerWriters :
    (∃ t, exec (.ldImm 3 7) State.reset = .next t) ∧ destination (.ldImm 3 7) 15 = false ∧ writesFlag (.ldImm 3 7) = false ∧
    (∃ t, exec (.addReg 3 4) State.reset = .next t) ∧ destination (.addReg 3 4) 4 = false ∧ (4 : Reg) ≠ 15 := by
  exact ⟨⟨_, rfl⟩, rfl, rfl, ⟨_, rfl⟩, rfl, by decide⟩

/-- StoreWriters, StackWriters, IndexTimerWriters, PcMovers (first clause), InputReaders, TimerReaders: `CLS` and `LD Vx, kk`
meet every clause's hypotheses but the framebuffer's and the timers' own writers'. -/
theorem test_witness_writers :
    (∃ t, exec .cls State.reset = .next t) ∧ (∀ x, Instr.cls ≠ .ldBVx x ∧ Instr.cls ≠ .storeRegs x) ∧ movesPc .cls = false ∧
    (∃ t, exec (.ldImm 3 7) State.reset = .next t) ∧
    (Instr.ldImm 3 7 ≠ .cls ∧ ∀ x y n, Instr.ldImm 3 7 ≠ .drw x y n) ∧
    Instr.ldImm 3 7 ≠ .ret ∧ (∀ a, Instr.ldImm 3 7 ≠ .call a) ∧ (∀ a, Instr.ldImm 3 7 ≠ .ldI a) ∧
    (∀ x, Instr.ldImm 3 7 ≠ .addIVx x ∧ Instr.ldImm 3 7 ≠ .ldFVx x) ∧ (∀ x, Instr.ldImm 3 7 ≠ .ldDtVx x) ∧
    (∀ x, Instr.ldImm 3 7 ≠ .ldStVx x) ∧ (∀ x, Instr.ldImm 3 7 ≠ .ldVxDt x) ∧ (∀ x kk, Instr.ldImm 3 7 ≠ .rnd x kk) ∧
    (∀ x, Instr.ldImm 3 7 ≠ .skp x ∧ Instr.ldImm 3 7 ≠ .sknp x ∧ Instr.ldImm 3 7 ≠ .ldVxK x) := by
  exact ⟨⟨_, rfl⟩, by simp, rfl, ⟨_, rfl⟩, by simp, by simp, by simp, by simp, by simp, by simp, by simp, by simp, by simp,
    by simp⟩

/-- PcMovers, second clause: a skip. -/
theorem test_witness_skip : (∃ t, exec (.seImm 0 0) State.reset = .next t) ∧
    ∃ x kk, Instr.seImm 0 0 = .seImm x kk ∨ Instr.seImm 0 0 = .sneImm x kk := by
  exact ⟨⟨_, rfl⟩, 0, 0, .inl rfl⟩

/-- RetResult: both ends of `SP > 0`, and `SP = 0`. -/
theorem test_witness_ret : (withStack 1 State.reset).sp.val ≠ 0 ∧ (withStack 16 State.reset).sp.val ≠ 0 ∧
    State.reset.sp.val = 0 := by decide

/-- CallResult and RetMatchesCall: both ends of `SP < 16`, and `SP = 16`; and a state after the call for RetMatchesCall. -/
theorem test_witness_call : State.reset.sp.val < 16 ∧ (withStack 15 State.reset).sp.val < 16 ∧
    (withStack 16 State.reset).sp.val = 16 ∧
    ∀ t : State, ∃ u : State, u.sp = t.sp ∧ u.stack = t.stack ∧ u.pc = 0x300 := by
  exact ⟨by decide, by decide, by decide, fun t => ⟨{ t with pc := 0x300 }, rfl, rfl, rfl⟩⟩

/-- StackLaw: a full run of 16 pushes, and an empty stack. -/
theorem test_witness_stack : State.reset.sp.val + (List.replicate 16 (0x0202 : Word)).length ≤ 16 ∧ State.reset.sp.val = 0 := by
  decide

/-- AddResult, SubtractResults, ShiftResults, DrawTwice: registers other than `VF`. -/
theorem test_witness_not_flag : (0 : Reg) ≠ 15 ∧ (14 : Reg) ≠ 15 := by decide

/-- BlockRoundTrip: another register content with the same memory and `I`. -/
theorem test_witness_block : ∀ t : State, ∃ u : State, u.mem = t.mem ∧ u.i = t.i ∧ u.v 0 = 0x99 := by
  exact fun t => ⟨t.setV 0 0x99, rfl, rfl, by simp [State.v, State.setV]⟩

/-- StoreSeenByFetch: P6, `I` at `pc`; and with different top bits. -/
theorem test_witness_selfModifying : 1 ≤ (1 : Reg).val ∧
    ({ State.reset with i := 0x1200 } : State).i.toNat % 4096 = State.reset.pc.toNat % 4096 := by decide

/-- MemoryPrimitives: addresses at the top of memory and others that differ. -/
theorem test_witness_addresses : 0x001 % 4096 ≠ 0xFFF % 4096 ∧ 0x001 % 4096 ≠ (0xFFF + 1) % 4096 := by decide

/-- TogglePixel: the last index, and another. -/
theorem test_witness_pixel : 2047 < 2048 ∧ 0 ≠ 2047 := by decide

/-- DrawSprite: a draw that erases, and one that does not. -/
theorem test_witness_draw :
    ({ State.reset with fb := litFrame [0] } : State).fb.pixel (0 * 64 + 0) = true ∧
    spriteBit { State.reset with fb := litFrame [0] } 0 1 1 0 0 = true ∧
    ∀ px < 64, ∀ py < 32, State.reset.fb.pixel (py * 64 + px) = true → spriteBit State.reset 0 1 1 px py = false := by
  refine ⟨by decide +kernel, by decide +kernel, fun px _ py _ h => ?_⟩
  have hz : State.reset.fb.pixel (py * 64 + px) = false := BitVec.getLsbD_zero
  rw [hz] at h
  cases h

/-- KeyWait: no key held, and the highest key alone held. -/
theorem test_witness_keys : State.reset.keys = 0 ∧ ({ State.reset with keys := 0x8000 } : State).keys ≠ 0 := by decide

/-- LoadImagePort: the longest image that fits, and one byte more. -/
theorem test_witness_image : (List.replicate 3584 (0 : Byte)).length ≤ 3584 ∧ 3584 < (List.replicate 3585 (0 : Byte)).length := by
  rw [List.length_replicate, List.length_replicate]
  decide

/-- IdleStays: T11, a jump to itself. -/
theorem test_witness_idle : Idle (launch 0x1200) := by
  exact ⟨by decide, rfl⟩

end Sys2Proof.Machine.Tests
end

section
/-! The memory primitives (20_memory.md R41 to R43). -/

namespace Sys2Proof.Machine

theorem toNat_hi (w : Word) : w.hi.toNat = w.toNat / 256 := by
  have hlt : w.toNat / 256 < 256 := by omega
  simp [Word.hi, Nat.shiftRight_eq_div_pow, Nat.mod_eq_of_lt hlt]

theorem toNat_lo (w : Word) : w.lo.toNat = w.toNat % 256 := by
  simp [Word.lo]

/-- Only the low 12 bits of an address count, for a write as for a read (20_memory.md R41). -/
theorem write_congr (m : Memory) {a a' : Nat} (h : a % 4096 = a' % 4096) (v : Byte) : m.write a v = m.write a' v := by
  have hp : physical a = physical a' := h
  simp only [Memory.write, hp]

theorem read_write16_high_byte (m : Memory) (a : Nat) (w : Word) : (m.write16 a w).read a = w.hi := by
  have hne : (a + 1) % 4096 ≠ a % 4096 := by omega
  rw [read_write16, if_neg hne, if_pos rfl]

theorem read_write16_low_byte (m : Memory) (a : Nat) (w : Word) : (m.write16 a w).read (a + 1) = w.lo := by
  rw [read_write16, if_pos rfl]

theorem read_write16_other (m : Memory) (a b : Nat) (w : Word) (h0 : b % 4096 ≠ a % 4096)
    (h1 : b % 4096 ≠ (a + 1) % 4096) : (m.write16 a w).read b = m.read b := by
  rw [read_write16, if_neg h1.symm, if_neg h0.symm]

theorem read16_write16_same (m : Memory) (a : Nat) (w : Word) : (m.write16 a w).read16 a = w := by
  rw [Memory.read16, read_write16_high_byte, read_write16_low_byte, ofBytes_hi_lo]

/-- Settles O47: each clause is one law of memory. The two bytes of a 2-byte write lie at different physical addresses, also
when `a + 1` wraps past 0xFFF, so the second write leaves the first byte alone. -/
theorem memoryPrimitives : Obligations.MemoryPrimitives := by
  intro m a b v w
  refine ⟨read_congr m (Nat.add_mod_right a 4096), write_congr m (Nat.add_mod_right a 4096) v, toNat_ofBytes _ _,
    ?write, ?high, ?low, read_write16_other m a b w, read16_write16_same m a w⟩
  case write => simp only [read_write, eq_comm]
  case high => rw [read_write16_high_byte, toNat_hi]
  case low => rw [read_write16_low_byte, toNat_lo]

end Sys2Proof.Machine
end

section
/-! The decoder against the opcode map, and the byte order (30_encoding.md R60, R65 to R67). -/

namespace Sys2Proof

open Machine

/-- The mnemonics of the rows, out of `rows`, that a word selects (30_encoding.md R66). -/
def selectedMnemonics (rows : List OpcodeRow) (w : Word) : List String := (rows.filter (·.selects w)).map (·.mnemonic)

theorem selectedMnemonics_eq (rows : List OpcodeRow) (w : Word) : selectedMnemonics rows w =
    rows.flatMap fun row => if w &&& row.mask = row.pattern then [row.mnemonic] else [] :=
  selectedRows_eq w rows

theorem selectedMnemonics_append (rows rows' : List OpcodeRow) (w : Word) :
    selectedMnemonics (rows ++ rows') w = selectedMnemonics rows w ++ selectedMnemonics rows' w := by
  simp [selectedMnemonics]

/-- The rows that a decoder's answer stands for: the one row of its instruction, or none. -/
def answeredMnemonics : Except Reject Instr → List String
  | .ok i => [i.mnemonic]
  | .error _ => []

@[simp] theorem answeredMnemonics_ok (i : Instr) : answeredMnemonics (.ok i) = [i.mnemonic] := rfl
@[simp] theorem answeredMnemonics_error (r : Reject) : answeredMnemonics (.error r) = [] := rfl

/-! ### One opcode nibble's group: its rows are what the group's decoder answers (30_encoding.md R67) -/

theorem answeredMnemonics_zeroGroup (w : Word) : answeredMnemonics (decodeZeroGroup w) =
    (if w.nnn = 0x0E0#12 then ["CLS"] else []) ++ (if w.nnn = 0x0EE#12 then ["RET"] else []) := by
  fun_cases decodeZeroGroup w <;> simp_all [Instr.mnemonic]

theorem answeredMnemonics_regSkip (i : Reg → Reg → Instr) (w : Word) : answeredMnemonics (decodeRegSkip i w) =
    if w.n = 0x0#4 then [(i w.x w.y).mnemonic] else [] := by
  fun_cases decodeRegSkip i w <;> simp [*]

theorem answeredMnemonics_keyGroup (w : Word) : answeredMnemonics (decodeKeyGroup w) =
    (if w.kk = 0x9E#8 then ["SKP_Vx"] else []) ++ (if w.kk = 0xA1#8 then ["SKNP_Vx"] else []) := by
  fun_cases decodeKeyGroup w <;> simp_all [Instr.mnemonic]

theorem selectedMnemonics_alu (w : Word) : selectedMnemonics opcodeTableAlu w =
    if w.op = 0x8#4 then answeredMnemonics (decodeAluGroup w) else [] := by
  simp (disch := decide) only [selectedMnemonics_eq, opcodeTableAlu, List.flatMap_cons, List.flatMap_nil, and_F00F_iff]
  by_cases h : w.op = 0x8#4
  · rw [if_pos h]
    fun_cases decodeAluGroup w <;> simp_all [Instr.mnemonic]
  · simp [h]

theorem selectedMnemonics_f (w : Word) : selectedMnemonics opcodeTableF w =
    if w.op = 0xF#4 then answeredMnemonics (decodeFGroup w) else [] := by
  simp (disch := decide) only [selectedMnemonics_eq, opcodeTableF, List.flatMap_cons, List.flatMap_nil, and_F0FF_iff]
  by_cases h : w.op = 0xF#4
  · rw [if_pos h]
    fun_cases decodeFGroup w <;> simp_all [Instr.mnemonic]
  · simp [h]

/-- The opcode nibble picks one group of rows, and the group's selector one row of it or none. -/
theorem selectedMnemonics_opcodeTable (w : Word) :
    selectedMnemonics opcodeTable w = answeredMnemonics (decode w) := by
  simp only [opcodeTable, selectedMnemonics_append, selectedMnemonics_alu, selectedMnemonics_f]
  simp (disch := decide) only [selectedMnemonics_eq, opcodeTableFlow, opcodeTableMixed, List.flatMap_cons, List.flatMap_nil,
    and_F000_iff, and_F00F_iff, and_F0FF_iff, and_FFFF_iff]
  rcases nibble_cases w.op with h | h | h | h | h | h | h | h | h | h | h | h | h | h | h | h <;>
    simp [h, decode, answeredMnemonics_zeroGroup, answeredMnemonics_regSkip, answeredMnemonics_keyGroup, Instr.mnemonic]

/-- Settles O3: the rows of the map, nibble by nibble, are what the decoder answers. -/
theorem decodeFollowsTable : Obligations.DecodeFollowsTable := by
  intro w
  refine (selectedMnemonics_opcodeTable w).trans ?_
  cases decode w <;> rfl

/-! ### The bytes of an instruction -/

/-- Each field that a layout puts in is the field that the decoder takes out (30_encoding.md R61 to R65). -/
theorem decode_encode (i : Instr) : decode (encode i) = .ok i := by
  cases i <;>
    simp [encode, decode, decodeZeroGroup, decodeRegSkip, decodeAluGroup, decodeKeyGroup, decodeFGroup]

theorem decodeBytes_hi_lo {w : Word} {i : Instr} (h : decode w = .ok i) (rest : List Byte) :
    decodeBytes (w.hi :: w.lo :: rest) = .ok (i, rest) := by
  simp [decodeBytes, h]

/-- Settles O5: the two bytes of an instruction put together are its word again, which decodes to the instruction. -/
theorem bytesBigEndian : Obligations.BytesBigEndian := by
  intro i rest
  constructor
  · exact decodeBytes_hi_lo (decode_encode i) rest
  · simp [encodeBytes, toNat_hi, toNat_lo]

end Sys2Proof
end

section
/-! The jumps and the skips (40_flow.md R81, R83 to R88): instructions whose whole effect is on `pc`. -/

namespace Sys2Proof.Machine

theorem onlyChanges_setPc (s : State) (a : Word) : OnlyChanges (fun p => p = .pc) s { s with pc := a } := by
  intro p hp
  cases p
  case pc => exact absurd rfl hp
  case ports => exact ⟨rfl, rfl⟩
  case env => exact ⟨rfl, rfl⟩
  all_goals rfl

/-- A skip is an update of `pc` alone, also where it is not taken (40_flow.md R87). -/
theorem onlyChanges_skipIf (s : State) (c : Bool) : OnlyChanges (fun p => p = .pc) s (s.skipIf c) := by
  cases c
  case false => exact onlyChanges_setPc s s.pc
  case true => exact onlyChanges_setPc s (s.pc + 2)

/-! ### Jumps -/

/-- The target of `JP V0` is at most 255 + 4095, so the 16-bit sum does not wrap (40_flow.md R88). -/
theorem toNat_zeroExtend_add_addrWord (b : Byte) (nnn : Addr) :
    (b.zeroExtend 16 + addrWord nnn).toNat = b.toNat + nnn.toNat := by
  have hb : (b.zeroExtend 16).toNat = b.toNat := BitVec.toNat_setWidth_of_le (by decide)
  rw [BitVec.toNat_add, hb, toNat_addrWord]
  omega

/-- Settles O28: each jump puts its target into `pc` and changes nothing else; the targets as numbers are
`toNat_addrWord` and `toNat_zeroExtend_add_addrWord`. -/
theorem jumps : Obligations.Jumps := by
  intro nnn s
  constructor
  · exact ⟨_, rfl, toNat_addrWord nnn, onlyChanges_setPc s _⟩
  · exact ⟨_, rfl, toNat_zeroExtend_add_addrWord (s.v 0) nnn, onlyChanges_setPc s _⟩

/-! ### Skips -/

/-- The skip of the two SE instructions (40_flow.md R83, R85). -/
theorem ends_skipIf_beq (s : State) (a b : Byte) : Ends (.next (s.skipIf (a == b))) fun t =>
    t.pc = (if a = b then s.pc + 2 else s.pc) ∧ OnlyChanges (fun p => p = .pc) s t := by
  refine ⟨_, rfl, ?_, onlyChanges_skipIf s _⟩
  simp only [skipIf_pc, beq_iff_eq]

/-- The skip of the two SNE instructions (40_flow.md R84, R86). -/
theorem ends_skipIf_bne (s : State) (a b : Byte) : Ends (.next (s.skipIf (a != b))) fun t =>
    t.pc = (if a = b then s.pc else s.pc + 2) ∧ OnlyChanges (fun p => p = .pc) s t := by
  refine ⟨_, rfl, ?_, onlyChanges_skipIf s _⟩
  simp only [skipIf_pc, bne_iff_ne, ite_not]

/-- Settles O30: the operands are `Vx` with an immediate or with a second register, compared by the one skip. -/
theorem skips : Obligations.Skips := by
  intro x y kk s
  exact ⟨ends_skipIf_beq s (s.v x) kk, ends_skipIf_bne s (s.v x) kk,
    ends_skipIf_beq s (s.v x) (s.v y), ends_skipIf_bne s (s.v x) (s.v y)⟩

end Sys2Proof.Machine
end

section
/-! The immediate instructions (41_immediate.md R91 to R93): one register is written, and no flag. -/

namespace Sys2Proof.Machine

theorem v_setV_same (s : State) (x : Reg) (b : Byte) : (s.setV x b).v x = b := by
  rw [v_setV, if_pos rfl]

/-- A register write leaves the other 15 registers, and so also `VF` where it is not the destination. -/
theorem onlyChanges_setV (s : State) (x : Reg) (b : Byte) : OnlyChanges (fun p => p = .reg x) s (s.setV x b) := by
  intro p hp
  cases p
  case reg r =>
    have hr : r ≠ x := fun h => hp (congrArg Part.reg h)
    exact (v_setV s x r b).trans (if_neg hr)
  case ports => exact ⟨rfl, rfl⟩
  case env => exact ⟨rfl, rfl⟩
  all_goals rfl

/-- Settles O33: both write `Vx` alone; the sum of bytes drops its carry. -/
theorem immediateResults : Obligations.ImmediateResults := by
  intro x kk s
  constructor
  · exact ⟨_, rfl, v_setV_same s x kk, onlyChanges_setV s x kk⟩
  · refine ⟨_, rfl, ?_, onlyChanges_setV s x (s.v x + kk)⟩
    rw [v_setV_same, BitVec.toNat_add]

/-- Settles O34: the written byte is the bitwise AND, for any sampled byte. -/
theorem randomMasked : Obligations.RandomMasked := by
  intro x kk s
  refine ⟨_, rfl, fun j _ => ?_, onlyChanges_setV s x (s.rnd &&& kk)⟩
  rw [v_setV_same, BitVec.getLsbD_and]

end Sys2Proof.Machine
end

section
/-! The register-to-register ALU group (42_alu.md R101 to R109): one result write, and for all but the copy one flag write
after it. -/

namespace Sys2Proof.Machine

/-- Settles O35: a copy is one register write, of a byte read before it. -/
theorem copyResult : Obligations.CopyResult := by
  intro x y s
  exact ⟨_, rfl, v_setV_same s x (s.v y), onlyChanges_setV s x (s.v y)⟩

/-! ### A result and its flag -/

theorem v_setResultFlag_flag (s : State) (x : Reg) (b : Byte) (f : Bool) : (s.setResultFlag x b f).v 15 = flagByte f := by
  rw [v_setResultFlag, if_pos rfl]

theorem v_setResultFlag_result (s : State) {x : Reg} (hx : x ≠ 15) (b : Byte) (f : Bool) :
    (s.setResultFlag x b f).v x = b := by
  rw [v_setResultFlag, if_neg hx, if_pos rfl]

theorem onlyChanges_setResultFlag (s : State) (x : Reg) (b : Byte) (f : Bool) :
    OnlyChanges (fun p => p = .reg x ∨ p = .reg 15) s (s.setResultFlag x b f) := by
  intro p hp
  cases p
  case reg r =>
    have hx : r ≠ x := fun h => hp (.inl (congrArg Part.reg h))
    have hf : r ≠ 15 := fun h => hp (.inr (congrArg Part.reg h))
    exact (v_setResultFlag s x r b f).trans ((if_neg hf).trans (if_neg hx))
  case ports => exact ⟨rfl, rfl⟩
  case env => exact ⟨rfl, rfl⟩
  all_goals rfl

/-- What the arithmetic and shift instructions share: the flag is written last, so with `x = 15` it is what stays
(10_state.md R13). An instruction only has to say which numbers its flag and its result are. -/
theorem ends_setResultFlag (s : State) (x : Reg) {b : Byte} {f : Bool} {flag result : Nat}
    (hflag : (flagByte f).toNat = flag) (hresult : b.toNat = result) : Ends (.next (s.setResultFlag x b f)) fun t =>
      (t.v 15).toNat = flag ∧ (x ≠ 15 → (t.v x).toNat = result) ∧
      OnlyChanges (fun p => p = .reg x ∨ p = .reg 15) s t := by
  refine ⟨_, rfl, ?_, fun hx => ?_, onlyChanges_setResultFlag s x b f⟩
  · rw [v_setResultFlag_flag, hflag]
  · rw [v_setResultFlag_result s hx, hresult]

/-- What the three logic instructions share: their flag is 0 (42_alu.md R102 to R104). An instruction only has to say which
bits its result has. -/
theorem ends_setLogic (s : State) (x : Reg) {b : Byte} {bit : Nat → Bool} (hbit : ∀ j, b.getLsbD j = bit j) :
    Ends (.next (s.setLogic x b)) fun t =>
      (∀ j < 8, (t.v x).getLsbD j = if x = 15 then false else bit j) ∧ t.v 15 = 0 ∧
      OnlyChanges (fun p => p = .reg x ∨ p = .reg 15) s t := by
  rw [setLogic_eq]
  have hflag : (s.setResultFlag x b false).v 15 = 0 := v_setResultFlag_flag s x b false
  refine ⟨_, rfl, fun j _ => ?_, hflag, onlyChanges_setResultFlag s x b false⟩
  by_cases hx : x = 15
  · subst hx
    rw [if_pos rfl, hflag]
    exact BitVec.getLsbD_zero
  · rw [if_neg hx, v_setResultFlag_result s hx, hbit]

/-! ### The flag of each kind of operation, as a number -/

theorem toNat_flagByte (f : Bool) : (flagByte f).toNat = f.toNat := by
  cases f <;> rfl

theorem toNat_flagByte_decide (p : Prop) [Decidable p] : (flagByte (decide p)).toNat = if p then 1 else 0 := by
  by_cases h : p <;> simp [flagByte, h]

theorem toNat_flagByte_shiftedOutRight (b : Byte) : (flagByte (shiftedOutRight b)).toNat = b.toNat % 2 := by
  rw [toNat_flagByte, shiftedOutRight, BitVec.getLsbD, Nat.toNat_testBit, Nat.pow_zero, Nat.div_one]

/-- Above bit 7 a byte has nothing, so the quotient by 128 is that bit. -/
theorem toNat_flagByte_shiftedOutLeft (b : Byte) : (flagByte (shiftedOutLeft b)).toNat = b.toNat / 128 := by
  rw [toNat_flagByte, shiftedOutLeft, BitVec.getLsbD, Nat.toNat_testBit]
  omega

/-! ### Results as numbers -/

theorem toNat_sub_byte (a b : Byte) : (a - b).toNat = (a.toNat + 256 - b.toNat) % 256 := by
  rw [BitVec.toNat_sub]
  omega

theorem toNat_shiftRight_one (b : Byte) : (b >>> 1).toNat = b.toNat / 2 := by
  rw [BitVec.toNat_ushiftRight, Nat.shiftRight_eq_div_pow, Nat.pow_one]

theorem toNat_shiftLeft_one (b : Byte) : (b <<< 1).toNat = 2 * b.toNat % 256 := by
  rw [BitVec.toNat_shiftLeft, Nat.shiftLeft_eq, Nat.pow_one, Nat.mul_comm]

/-! ### The instructions -/

/-- Settles O36: the bits of each result are the bitwise operation's. -/
theorem logicResults : Obligations.LogicResults := by
  intro x y s
  exact ⟨ends_setLogic s x fun _ => BitVec.getLsbD_or, ends_setLogic s x fun _ => BitVec.getLsbD_and,
    ends_setLogic s x fun _ => BitVec.getLsbD_xor⟩

/-- Settles O37: the carry out is the test that the sum exceeds 255, and the sum of bytes drops it. -/
theorem addResult : Obligations.AddResult := by
  intro x y s
  exact ends_setResultFlag s x (toNat_flagByte_decide _) (BitVec.toNat_add _ _)

/-- Settles O38: SUBN is SUB with its operands exchanged, and the flag of both is the comparison of minuend and subtrahend. -/
theorem subtractResults : Obligations.SubtractResults := by
  intro x y s
  exact ⟨ends_setResultFlag s x (toNat_flagByte_decide _) (toNat_sub_byte (s.v x) (s.v y)),
    ends_setResultFlag s x (toNat_flagByte_decide _) (toNat_sub_byte (s.v y) (s.v x))⟩

/-- Settles O39: the shifted register is `Vy` (`shiftOperand_eq`), the bit shifted out its lowest or its highest. -/
theorem shiftResults : Obligations.ShiftResults := by
  intro x y s
  exact ⟨ends_setResultFlag s x (toNat_flagByte_shiftedOutRight (s.v y)) (toNat_shiftRight_one (s.v y)),
    ends_setResultFlag s x (toNat_flagByte_shiftedOutLeft (s.v y)) (toNat_shiftLeft_one (s.v y))⟩

end Sys2Proof.Machine
end

section
/-! The index register, and memory through it (43_index_memory.md R120 to R126): `I` alone is written, or a list of bytes from
`I` on is, or a block of registers is read from there. -/

namespace Sys2Proof.Machine

theorem OnlyChanges.mono {may may' : Part → Prop} {s t : State} (h : OnlyChanges may s t) (hle : ∀ p, may p → may' p) :
    OnlyChanges may' s t :=
  fun p hp => h p fun hm => hp (hle p hm)

/-! ### The index register -/

theorem onlyChanges_setI (s : State) (a : Word) : OnlyChanges (fun p => p = .i) s { s with i := a } := by
  intro p hp
  cases p
  case i => exact absurd rfl hp
  case ports => exact ⟨rfl, rfl⟩
  case env => exact ⟨rfl, rfl⟩
  all_goals rfl

/-- The sum is taken modulo 2^16 and a carry out of it is dropped (43_index_memory.md R122). -/
theorem toNat_add_zeroExtend (a : Word) (b : Byte) : (a + b.zeroExtend 16).toNat = (a.toNat + b.toNat) % 65536 := by
  have hb : (b.zeroExtend 16).toNat = b.toNat := BitVec.toNat_setWidth_of_le (by decide)
  rw [BitVec.toNat_add, hb]

/-- Settles O40: both write `I` alone; the new values as numbers are `toNat_addrWord` and `toNat_add_zeroExtend`. -/
theorem indexResults : Obligations.IndexResults := by
  intro nnn x s
  constructor
  · exact ⟨_, rfl, toNat_addrWord nnn, onlyChanges_setI s _⟩
  · exact ⟨_, rfl, toNat_add_zeroExtend s.i (s.v x), onlyChanges_setI s _⟩

/-- Settles O41: the glyph address of any byte is at most 1275, so it does not wrap (`toNat_glyphAddr`). -/
theorem glyphAddress : Obligations.GlyphAddress := by
  intro x s
  exact ⟨_, rfl, toNat_glyphAddr (s.v x), onlyChanges_setI s _⟩

/-! ### Bytes stored from `I` on

A list of at most 4096 bytes does not wrap onto itself, so each byte is read where it was put. -/

theorem read_writeList_effAddr (s : State) (bs : List Byte) (hl : bs.length ≤ 4096) (k : Nat) (hk : k < bs.length) :
    (s.mem.writeList (s.effAddr 0) bs).read (s.effAddr k) = bs[k] :=
  read_writeList_at s.mem s.i.toNat bs hl k hk

theorem onlyChanges_writeList (s : State) (bs : List Byte) (hl : bs.length ≤ 4096) :
    OnlyChanges (fun p => ∃ k < bs.length, p = .byte (s.dataAddr k)) s
      { s with mem := s.mem.writeList (s.effAddr 0) bs } := by
  intro p hp
  cases p
  case byte a =>
    refine read_writeList_outside s.mem s.i.toNat bs hl a.toNat fun k hk he => hp ⟨k, hk, congrArg Part.byte ?_⟩
    apply BitVec.eq_of_toNat_eq
    rw [toNat_dataAddr, he, Nat.mod_eq_of_lt a.isLt]
  case ports => exact ⟨rfl, rfl⟩
  case env => exact ⟨rfl, rfl⟩
  all_goals rfl

/-- Settles O42: each of the three digits of a byte is below 256, so the byte stored for it is that number. -/
theorem bcdStore : Obligations.BcdStore := by
  intro x s
  have hl : (bcdDigits (s.v x)).length ≤ 4096 := by rw [bcdDigits_length]; decide
  have hread : ∀ k (hk : k < 3), (s.mem.writeList (s.effAddr 0) (bcdDigits (s.v x))).read (s.effAddr k) =
      (bcdDigits (s.v x))[k] := read_writeList_effAddr s (bcdDigits (s.v x)) hl
  have hdigit : ∀ d < 256, (BitVec.ofNat 8 d).toNat = d := fun d hd => Nat.mod_eq_of_lt hd
  refine ⟨_, rfl, ?hundreds, ?tens, ?ones, onlyChanges_writeList s (bcdDigits (s.v x)) hl⟩
  case hundreds => exact (congrArg BitVec.toNat (hread 0 (by decide))).trans (hdigit _ (by omega))
  case tens => exact (congrArg BitVec.toNat (hread 1 (by decide))).trans (hdigit _ (by omega))
  case ones => exact (congrArg BitVec.toNat (hread 2 (by decide))).trans (hdigit _ (by omega))

/-- Settles O43: the list stored has `x + 1` bytes, the k-th of them `Vk`, and `I` keeps its value (`blockIndex_eq`). -/
theorem blockStore : Obligations.BlockStore := by
  intro x s
  have hlen : (s.regBlock x).length = x.val + 1 := regBlock_length s x
  have hl : (s.regBlock x).length ≤ 4096 := by omega
  refine ⟨_, rfl, fun k hk => ?_, (onlyChanges_writeList s (s.regBlock x) hl).mono ?_⟩
  · have hk' : k.val < (s.regBlock x).length := by omega
    exact (read_writeList_effAddr s (s.regBlock x) hl k.val hk').trans (regBlock_getElem s x k.val hk')
  · rintro p ⟨k, hk, hp⟩
    exact ⟨k, by omega, hp⟩

/-! ### Registers loaded from `I` on -/

theorem onlyChanges_loadBlock (s : State) (n : Nat) (h : n ≤ 16) :
    OnlyChanges (fun p => ∃ k : Reg, k.val < n ∧ p = .reg k) s (s.loadBlock n h) := by
  intro p hp
  cases p
  case reg r =>
    have hr : ¬ r.val < n := fun hlt => hp ⟨r, hlt, rfl⟩
    exact (v_loadBlock s n h r).trans (if_neg hr)
  all_goals simp [Same]

/-- A block load leaves `I` as it was, so it is its register writes alone (43_index_memory.md R120). -/
theorem exec_loadRegs_eq (x : Reg) (s : State) : exec (.loadRegs x) s = .next (s.loadBlock (x.val + 1) x.isLt) := by
  have hi : s.blockIndex x = (s.loadBlock (x.val + 1) x.isLt).i := (loadBlock_i s (x.val + 1) x.isLt).symm
  change execLoadRegs x s = _
  rw [execLoadRegs, hi]

/-- Settles O44: the load writes the first `x + 1` registers, each with the byte at its own offset from `I`. -/
theorem blockLoad : Obligations.BlockLoad := by
  intro x s
  refine ⟨_, exec_loadRegs_eq x s, fun k hk => ?_, (onlyChanges_loadBlock s (x.val + 1) x.isLt).mono ?_⟩
  · exact (v_loadBlock s (x.val + 1) x.isLt k).trans (if_pos (Nat.lt_succ_of_le hk))
  · rintro p ⟨k, hk, hp⟩
    exact ⟨k, Nat.le_of_lt_succ hk, hp⟩

end Sys2Proof.Machine
end

section
/-! The framebuffer controller (44_display.md R131 to R137): toggling, clearing and rendering. -/

namespace Sys2Proof.Machine

/-- The framebuffer port `TogglePixel` is its own inverse (44_display.md R135): both calls XOR the same one-bit frame. -/
theorem togglePixel_togglePixel (f : Frame) (i : Nat) (b : Bool) : (togglePixel (togglePixel f i b).1 i b).1 = f := by
  simp only [togglePixel, BitVec.xor_assoc, BitVec.xor_self, BitVec.xor_zero]

/-- Settles O48: the two pixel clauses are `pixel_togglePixel` at the toggled index and at another. -/
theorem togglePixel_spec : Obligations.TogglePixel := by
  intro f i b hi
  refine ⟨?_, togglePixel_erased f i b, fun j hj => ?_, togglePixel_togglePixel f i b⟩
  · rw [pixel_togglePixel f i b hi, if_pos rfl]
  · rw [pixel_togglePixel f i b hi, if_neg hj]

theorem onlyChanges_setFb (s : State) (f : Frame) : OnlyChanges (fun p => ∃ i, p = .pixel i) s { s with fb := f } := by
  intro p hp
  cases p
  case pixel i => exact absurd ⟨i, rfl⟩ hp
  case ports => exact ⟨rfl, rfl⟩
  case env => exact ⟨rfl, rfl⟩
  all_goals rfl

theorem pixel_clearFrame (i : Nat) : clearFrame.pixel i = false := BitVec.getLsbD_zero

/-- Settles O49: `CLS` is an update of the framebuffer alone, by the clear frame. -/
theorem clearDisplay : Obligations.ClearDisplay := by
  intro s
  exact ⟨_, rfl, fun p => pixel_clearFrame p.val, onlyChanges_setFb s clearFrame⟩

theorem length_render (f : Frame) : (render f).length = 2048 := by
  rw [render, List.length_map, List.length_range, config_fbPixels]

theorem render_getElem? (f : Frame) {i : Nat} (hi : i < 2048) : (render f)[i]? = some (i % 64, i / 64, f.pixel i) := by
  rw [render, List.getElem?_map, config_fbPixels, List.getElem?_range hi, Option.map_some, config_fbW]

/-- Settles O52: `Render` maps the ascending indices. -/
theorem renderOrder : Obligations.RenderOrder := by
  intro f
  exact ⟨length_render f, fun _ hi => render_getElem? f hi⟩

end Sys2Proof.Machine
end

section
/-! The sprite draw (44_display.md R134). A draw is put together from single columns. Each part of it XORs its own window of the
sprite onto the grid, and since the windows do not overlap, the parts add up to the whole sprite. -/

namespace Sys2Proof.Machine

/-! ### Drawing bits onto the grid -/

/-- From the framebuffer and `erased` in `p` to those in `q`, the bits `bit px py` are XORed onto the grid, and `erased` is
raised where a set pixel met a 1 bit. -/
def Draws (bit : Nat → Nat → Bool) (p q : Frame × Bool) : Prop :=
  (∀ px < 64, ∀ py < 32, q.1.pixel (py * 64 + px) = (p.1.pixel (py * 64 + px) != bit px py)) ∧
  (q.2 = true ↔ p.2 = true ∨ ∃ px < 64, ∃ py < 32, p.1.pixel (py * 64 + px) = true ∧ bit px py = true)

theorem draws_self {bit : Nat → Nat → Bool} (p : Frame × Bool) (h : ∀ px < 64, ∀ py < 32, bit px py = false) :
    Draws bit p p := by
  refine ⟨fun px hx py hy => ?_, .inl, ?_⟩
  · rw [h px hx py hy, Bool.bne_false]
  · rintro (he | ⟨px, hx, py, hy, -, hbit⟩)
    · exact he
    · rw [h px hx py hy] at hbit
      cases hbit

/-- Two draws one after the other are one draw of all their bits, where no pixel has a 1 bit in both: the second then meets the
pixels the first has found. -/
theorem Draws.trans {bit bit₁ bit₂ : Nat → Nat → Bool} {p q r : Frame × Bool} (h₁ : Draws bit₁ p q) (h₂ : Draws bit₂ q r)
    (hor : ∀ px py, bit px py = (bit₁ px py || bit₂ px py)) (hdisj : ∀ px py, bit₂ px py = true → bit₁ px py = false) :
    Draws bit p r := by
  obtain ⟨hpix₁, her₁⟩ := h₁
  obtain ⟨hpix₂, her₂⟩ := h₂
  have hmet : ∀ px < 64, ∀ py < 32, bit₂ px py = true → q.1.pixel (py * 64 + px) = p.1.pixel (py * 64 + px) := by
    intro px hx py hy hbit
    rw [hpix₁ px hx py hy, hdisj px py hbit, Bool.bne_false]
  constructor
  · intro px hx py hy
    rw [hpix₂ px hx py hy, hor]
    cases hbit : bit₂ px py
    case false => rw [Bool.bne_false, Bool.or_false, hpix₁ px hx py hy]
    case true => rw [Bool.or_true, hmet px hx py hy hbit]
  · simp only [her₂, her₁, hor, Bool.or_eq_true]
    constructor
    · rintro ((he | ⟨px, hx, py, hy, hp, hbit⟩) | ⟨px, hx, py, hy, hq, hbit⟩)
      · exact .inl he
      · exact .inr ⟨px, hx, py, hy, hp, .inl hbit⟩
      · exact .inr ⟨px, hx, py, hy, hmet px hx py hy hbit ▸ hq, .inr hbit⟩
    · rintro (he | ⟨px, hx, py, hy, hp, hbit | hbit⟩)
      · exact .inl (.inl he)
      · exact .inl (.inr ⟨px, hx, py, hy, hp, hbit⟩)
      · exact .inr ⟨px, hx, py, hy, (hmet px hx py hy hbit).trans hp, hbit⟩

/-! ### Windows of a sprite -/

/-- The bit on pixel `(px, py)` of the sprite with the bytes `rowByte`, placed at `(x0, y0)`, as far as it lies in the sprite's
columns `c` to `c' - 1` and rows `r` to `r' - 1`. -/
def windowBit (rowByte : Nat → Byte) (x0 y0 c c' r r' px py : Nat) : Bool :=
  decide (x0 + c ≤ px) && decide (px < x0 + c') && decide (y0 + r ≤ py) && decide (py < y0 + r') &&
    (rowByte (py - y0)).getLsbD (7 - (px - x0))

theorem spriteBit_eq_windowBit (s : State) (x y : Reg) (n : Nibble) : spriteBit s x y n =
    windowBit (fun row => s.mem.read (s.effAddr row)) ((s.v x).toNat % 64) ((s.v y).toNat % 32) 0 8 0 n.toNat := rfl

section
variable {rowByte : Nat → Byte} {x0 y0 : Nat}

theorem windowBit_eq_true {c c' r r' px py : Nat} : windowBit rowByte x0 y0 c c' r r' px py = true ↔
    (x0 + c ≤ px ∧ px < x0 + c') ∧ (y0 + r ≤ py ∧ py < y0 + r') ∧ (rowByte (py - y0)).getLsbD (7 - (px - x0)) = true := by
  simp only [windowBit, Bool.and_eq_true, decide_eq_true_eq, and_assoc]

theorem windowBit_eq_false {c c' r r' px py : Nat} (h : x0 + c ≤ px → px < x0 + c' → y0 + r ≤ py → py < y0 + r' → False) :
    windowBit rowByte x0 y0 c c' r r' px py = false := by
  rw [Bool.eq_false_iff, ne_eq, windowBit_eq_true]
  rintro ⟨⟨hc, hc'⟩, ⟨hr, hr'⟩, -⟩
  exact h hc hc' hr hr'

/-- A window one column and one row wide has the bit of its one pixel and no other. -/
theorem windowBit_single (c r px py : Nat) : windowBit rowByte x0 y0 c (c + 1) r (r + 1) px py =
    (decide (px = x0 + c ∧ py = y0 + r) && (rowByte r).getLsbD (7 - c)) := by
  by_cases h : px = x0 + c ∧ py = y0 + r
  · obtain ⟨rfl, rfl⟩ := h
    simp [windowBit]
  · rw [decide_eq_false h, Bool.false_and]
    exact windowBit_eq_false (by omega)

/-- Neighbouring windows of the same rows, drawn one after the other, are one window. -/
theorem Draws.append_columns {c c' c'' r r' : Nat} {p q t : Frame × Bool} (hc : c ≤ c') (hc' : c' ≤ c'')
    (h₁ : Draws (windowBit rowByte x0 y0 c c' r r') p q) (h₂ : Draws (windowBit rowByte x0 y0 c' c'' r r') q t) :
    Draws (windowBit rowByte x0 y0 c c'' r r') p t := by
  refine h₁.trans h₂ (fun px py => ?_) (fun px py hbit => windowBit_eq_false ?_)
  · have hsplit : (x0 + c ≤ px ∧ px < x0 + c'') ↔ (x0 + c ≤ px ∧ px < x0 + c') ∨ (x0 + c' ≤ px ∧ px < x0 + c'') := by omega
    rw [Bool.eq_iff_iff, Bool.or_eq_true]
    simp only [windowBit_eq_true, hsplit, or_and_right]
  · obtain ⟨⟨hge, -⟩, -⟩ := windowBit_eq_true.mp hbit
    omega

/-- Neighbouring windows of the same columns, drawn one after the other, are one window. -/
theorem Draws.append_rows {c c' r r' r'' : Nat} {p q t : Frame × Bool} (hr : r ≤ r') (hr' : r' ≤ r'')
    (h₁ : Draws (windowBit rowByte x0 y0 c c' r r') p q) (h₂ : Draws (windowBit rowByte x0 y0 c c' r' r'') q t) :
    Draws (windowBit rowByte x0 y0 c c' r r'') p t := by
  refine h₁.trans h₂ (fun px py => ?_) (fun px py hbit => windowBit_eq_false ?_)
  · have hsplit : (y0 + r ≤ py ∧ py < y0 + r'') ↔ (y0 + r ≤ py ∧ py < y0 + r') ∨ (y0 + r' ≤ py ∧ py < y0 + r'') := by omega
    rw [Bool.eq_iff_iff, Bool.or_eq_true]
    simp only [windowBit_eq_true, hsplit, or_and_right, and_or_left]
  · obtain ⟨-, ⟨hge, -⟩, -⟩ := windowBit_eq_true.mp hbit
    omega

/-! ### Columns, rows and the sprite -/

theorem drawColumn_draws {r : Nat} (hr : y0 + r < 32) (p : Frame × Bool) (c : Nat) :
    Draws (windowBit rowByte x0 y0 c (c + 1) r (r + 1)) p (drawColumn x0 (y0 + r) (rowByte r) p c) := by
  by_cases hc : x0 + c < 64
  · obtain ⟨hpix, her⟩ := drawColumn_inside x0 (y0 + r) (rowByte r) p c hc hr
    have hindex : ∀ px < 64, ∀ py, py * 64 + px = (y0 + r) * 64 + (x0 + c) ↔ px = x0 + c ∧ py = y0 + r := by
      intro px hx py
      omega
    refine ⟨fun px hx py _ => ?_, ?_⟩
    · rw [hpix, windowBit_single]
      simp only [hindex px hx]
      by_cases h : px = x0 + c ∧ py = y0 + r <;> simp [h]
    · rw [her, Bool.or_eq_true, Bool.and_eq_true]
      simp only [windowBit_single, Bool.and_eq_true, decide_eq_true_eq]
      constructor
      · rintro (he | ⟨hp, hbit⟩)
        · exact .inl he
        · exact .inr ⟨x0 + c, hc, y0 + r, hr, hp, ⟨rfl, rfl⟩, hbit⟩
      · rintro (he | ⟨px, -, py, -, hp, ⟨rfl, rfl⟩, hbit⟩)
        · exact .inl he
        · exact .inr ⟨hp, hbit⟩
  · rw [drawColumn_clipped _ _ _ _ _ hc]
    exact draws_self p fun px hx py _ => windowBit_eq_false (by omega)

theorem foldl_drawColumn_draws {r : Nat} (hr : y0 + r < 32) (p : Frame × Bool) (k : Nat) :
    Draws (windowBit rowByte x0 y0 0 k r (r + 1)) p ((List.range k).foldl (drawColumn x0 (y0 + r) (rowByte r)) p) := by
  induction k with
  | zero => exact draws_self p fun px _ py _ => windowBit_eq_false (by omega)
  | succ k ih =>
    rw [List.range_succ, List.foldl_append]
    exact ih.append_columns (Nat.zero_le k) (Nat.le_succ k) (drawColumn_draws hr _ k)

theorem drawRow_draws {r : Nat} (hr : y0 + r < 32) (p : Frame × Bool) :
    Draws (windowBit rowByte x0 y0 0 8 r (r + 1)) p (drawRow x0 (y0 + r) (rowByte r) p) :=
  foldl_drawColumn_draws hr p 8

/-- The index test for the bottom edge is a test of the row alone, as the start column lies inside the grid. -/
theorem drawRows_succ (hx0 : x0 < 64) (left row : Nat) (p : Frame × Bool) : drawRows rowByte x0 y0 (left + 1) row p =
    if y0 + row < 32 then drawRows rowByte x0 y0 left (row + 1) (drawRow x0 (y0 + row) (rowByte row) p) else p := by
  have hgrid : pixelIndex x0 (y0 + row) ≥ config.fbPixels ↔ ¬ y0 + row < 32 := by
    rw [pixelIndex_eq, config_fbPixels]
    omega
  simp only [drawRows, hgrid, ite_not]

theorem drawRows_draws (hx0 : x0 < 64) (left row : Nat) (p : Frame × Bool) :
    Draws (windowBit rowByte x0 y0 0 8 row (row + left)) p (drawRows rowByte x0 y0 left row p) := by
  induction left generalizing row p with
  | zero => exact draws_self p fun px _ py _ => windowBit_eq_false (by omega)
  | succ left ih =>
    rw [drawRows_succ hx0]
    split
    case isTrue hr =>
      have hrest := ih (row + 1) (drawRow x0 (y0 + row) (rowByte row) p)
      rw [Nat.add_right_comm, Nat.add_assoc row left 1] at hrest
      exact (drawRow_draws hr p).append_rows (by omega) (by omega) hrest
    case isFalse hr => exact draws_self p fun px _ py hy => windowBit_eq_false (by omega)

end

theorem drawSprite_draws (s : State) (x y : Reg) (n : Nibble) :
    Draws (spriteBit s x y n) (s.fb, false) (drawSprite s x y n) := by
  have hdraw := drawRows_draws (rowByte := fun row => s.mem.read (s.effAddr row)) (y0 := (s.v y).toNat % 32)
    (Nat.mod_lt (s.v x).toNat (by decide : 64 > 0)) n.toNat 0 (s.fb, false)
  rw [Nat.zero_add] at hdraw
  rw [spriteBit_eq_windowBit, drawSprite, startColumn_eq, startRow_eq]
  exact hdraw

/-! ### The instruction -/

theorem Same.trans {s t u : State} {p : Part} (h₁ : Same s t p) (h₂ : Same t u p) : Same s u p := by
  cases p
  case ports => exact ⟨h₂.1.trans h₁.1, h₂.2.trans h₁.2⟩
  case env => exact ⟨h₂.1.trans h₁.1, h₂.2.trans h₁.2⟩
  all_goals exact Eq.trans h₂ h₁

theorem OnlyChanges.trans {may₁ may₂ : Part → Prop} {s t u : State} (h₁ : OnlyChanges may₁ s t) (h₂ : OnlyChanges may₂ t u) :
    OnlyChanges (fun p => may₁ p ∨ may₂ p) s u :=
  fun p hp => (h₁ p fun hm => hp (.inl hm)).trans (h₂ p fun hm => hp (.inr hm))

/-- Settles O50: the draw XORs the sprite's bits onto the grid (`drawSprite_draws`), and its `erased`, which starts at 0, is the
flag. -/
theorem drawSprite_spec : Obligations.DrawSprite := by
  intro x y n s
  obtain ⟨hpix, her⟩ := drawSprite_draws s x y n
  have hflag := v_setV_same { s with fb := (drawSprite s x y n).1 } 15 (flagByte (drawSprite s x y n).2)
  refine ⟨_, rfl, hpix, fun hmet => ?set, fun hnone => ?clear, ?frame⟩
  case set => exact hflag.trans (congrArg flagByte (her.mpr (.inr hmet)))
  case clear =>
    refine hflag.trans (congrArg flagByte (Bool.eq_false_iff.mpr fun he => ?_))
    rcases her.mp he with hf | ⟨px, hx, py, hy, hp, hbit⟩
    · cases hf
    · rw [hnone px hx py hy hp] at hbit
      cases hbit
  case frame => exact ((onlyChanges_setFb s _).trans (onlyChanges_setV _ 15 _)).mono fun _ hp => hp.symm

end Sys2Proof.Machine
end

section
/-! The keypad and timer instructions (45_keypad_timers.md R140 to R147). -/

namespace Sys2Proof.Machine

/-! ### Keys -/

/-- Settles O53: both skips test the one key that the low four bits of `Vx` select, and SKNP negates the test. -/
theorem keySkips : Obligations.KeySkips := by
  intro x s
  constructor
  · refine ⟨_, rfl, ?_, onlyChanges_skipIf s _⟩
    rw [skipIf_pc, keyHeld_eq]
  · refine ⟨_, rfl, ?_, onlyChanges_skipIf s _⟩
    rw [skipIf_pc, keyHeld_eq]
    cases s.keys.getLsbD ((s.v x).toNat % 16) <;> rfl

/-- The wait: without a held key `pc` goes back to the instruction itself (45_keypad_timers.md R142). -/
theorem exec_ldVxK_of_none {s : State} (x : Reg) (h : s.firstHeldKey = none) : exec (.ldVxK x) s = .next s.backPc := by
  change execLdVxK x s = _
  rw [execLdVxK, h]

theorem exec_ldVxK_of_some {s : State} {k : Nat} (x : Reg) (h : s.firstHeldKey = some k) :
    exec (.ldVxK x) s = .next (s.setV x (BitVec.ofNat 8 k)) := by
  change execLdVxK x s = _
  rw [execLdVxK, h]

/-- Settles O54: a key is found exactly where one is held, and the number of the found key, being below 16, fits the register
that takes it. -/
theorem keyWait : Obligations.KeyWait := by
  intro x s
  constructor
  · intro hnone
    exact ⟨_, exec_ldVxK_of_none x (firstHeldKey_eq_none.mpr hnone), backPc_pc s, onlyChanges_setPc s (s.pc - 2)⟩
  · intro hheld
    obtain ⟨k, hk⟩ := Option.ne_none_iff_exists'.mp (mt firstHeldKey_eq_none.mp hheld)
    obtain ⟨hlt, hkey, hbelow⟩ := firstHeldKey_eq_some hk
    have hv : ((s.setV x (BitVec.ofNat 8 k)).v x).toNat = k := by
      rw [v_setV_same, BitVec.toNat_ofNat]
      omega
    refine ⟨_, exec_ldVxK_of_some x hk, ?_, ?_, onlyChanges_setV s x _⟩
    · rw [hv, hkey]
    · rw [hv]
      exact hbelow

/-! ### Timers -/

theorem onlyChanges_setDt (s : State) (b : Byte) : OnlyChanges (fun p => p = .dt) s { s with dt := b } := by
  intro p hp
  cases p
  case dt => exact absurd rfl hp
  case ports => exact ⟨rfl, rfl⟩
  case env => exact ⟨rfl, rfl⟩
  all_goals rfl

theorem onlyChanges_setSt (s : State) (b : Byte) : OnlyChanges (fun p => p = .st) s { s with st := b } := by
  intro p hp
  cases p
  case st => exact absurd rfl hp
  case ports => exact ⟨rfl, rfl⟩
  case env => exact ⟨rfl, rfl⟩
  all_goals rfl

/-- Settles O55: each move is one write, of a register or of a timer. -/
theorem timerMoves : Obligations.TimerMoves := by
  intro x s
  exact ⟨⟨_, rfl, v_setV_same s x s.dt, onlyChanges_setV s x s.dt⟩, ⟨_, rfl, rfl, onlyChanges_setDt s (s.v x)⟩,
    ⟨_, rfl, rfl, onlyChanges_setSt s (s.v x)⟩⟩

end Sys2Proof.Machine
end

section
/-! What the decoder answers, instruction and rejection alike (30_encoding.md R65 to R69): an instruction has the decoded word as
its encoding, and a rejection says that this word is a reserved encoding. -/

namespace Sys2Proof

open Machine

/-- An answer of the decoder that fits the word: an instruction that the word encodes, or `UnhandledOperand` of the word. -/
def AnswerFits (w : Word) : Except Reject Instr → Prop
  | .ok i => encode i = w
  | .error r => r = .unhandledOperand w

/-! ### A layout filled with the fields of a word, some of them known -/

theorem layoutA_of_fields {w : Word} {op : Nibble} {nnn : Addr} (hop : w.op = op) (hnnn : w.nnn = nnn) :
    layoutA op nnn = w := by
  rw [← hop, ← hnnn, layoutA_fields]

theorem layoutB_of_fields {w : Word} {op : Nibble} {kk : Byte} (hop : w.op = op) (hkk : w.kk = kk) :
    layoutB op w.x kk = w := by
  rw [← hop, ← hkk, layoutB_fields]

theorem layoutC_of_fields {w : Word} {op n : Nibble} (hop : w.op = op) (hn : w.n = n) : layoutC op w.x w.y n = w := by
  rw [← hop, ← hn, layoutC_fields]

/-! ### The groups with a selector: an answer for each of its values, and a rejection last -/

theorem answerFits_zeroGroup {w : Word} (hop : w.op = 0x0#4) : AnswerFits w (decodeZeroGroup w) := by
  fun_cases decodeZeroGroup w
  case case3 => rfl
  all_goals exact layoutA_of_fields hop ‹_›

theorem answerFits_regSkip {i : Reg → Reg → Instr} {w : Word} {op : Nibble} (hop : w.op = op)
    (hi : ∀ x y, encode (i x y) = layoutC op x y 0x0#4) : AnswerFits w (decodeRegSkip i w) := by
  fun_cases decodeRegSkip i w
  case case1 hn => exact (hi w.x w.y).trans (layoutC_of_fields hop hn)
  case case2 => rfl

theorem answerFits_aluGroup {w : Word} (hop : w.op = 0x8#4) : AnswerFits w (decodeAluGroup w) := by
  fun_cases decodeAluGroup w
  case case10 => rfl
  all_goals exact layoutC_of_fields hop ‹_›

theorem answerFits_keyGroup {w : Word} (hop : w.op = 0xE#4) : AnswerFits w (decodeKeyGroup w) := by
  fun_cases decodeKeyGroup w
  case case3 => rfl
  all_goals exact layoutB_of_fields hop ‹_›

theorem answerFits_fGroup {w : Word} (hop : w.op = 0xF#4) : AnswerFits w (decodeFGroup w) := by
  fun_cases decodeFGroup w
  case case10 => rfl
  all_goals exact layoutB_of_fields hop ‹_›

/-! ### The decoder -/

/-- The opcode nibble gives the layout of the answer; the last arm, `DecodeFault`, is not taken by any nibble (30_encoding.md
R69). -/
theorem answerFits_decode (w : Word) : AnswerFits w (decode w) := by
  fun_cases decode w
  case case1 hop => exact answerFits_zeroGroup hop
  case case9 hop => exact answerFits_aluGroup hop
  case case15 hop => exact answerFits_keyGroup hop
  case case16 hop => exact answerFits_fGroup hop
  case case6 hop | case10 hop => exact answerFits_regSkip hop fun _ _ => rfl
  case case2 hop | case3 hop | case11 hop | case12 hop => exact layoutA_of_fields hop rfl
  case case4 hop | case5 hop | case7 hop | case8 hop | case13 hop => exact layoutB_of_fields hop rfl
  case case14 hop => exact layoutC_of_fields hop rfl
  case case17 => exact absurd (nibble_cases w.op) (by tauto)

end Sys2Proof
end

section
/-! Faults and ticks (60_exceptions.md R150 to R166). A step that faults does two things, both on the state with the inputs sampled:
it advances `pc`, as every step does, and it appends one record. -/

namespace Sys2Proof.Machine

/-! ### Faults -/

theorem onlyChanges_present (s : State) (keys : BitVec 16) (rnd : Byte) :
    OnlyChanges (fun p => p = .ports) s (s.present keys rnd) := by
  intro p hp
  cases p
  case ports => exact absurd rfl hp
  case env => exact ⟨rfl, rfl⟩
  all_goals rfl

theorem onlyChanges_raiseFault (kind : FaultKind) (w : Word) (s : State) :
    OnlyChanges (fun p => p = .diag) s (raiseFault kind w s) := by
  intro p hp
  cases p
  case diag => exact absurd rfl hp
  case ports => exact ⟨rfl, rfl⟩
  case env => exact ⟨rfl, rfl⟩
  all_goals rfl

/-- The faults that a step can raise: `UnhandledOperand`, `StackUnderflow` and `StackOverflow` (60_exceptions.md R151). -/
def FaultKind.RaisedByStep (kind : FaultKind) : Prop := kind.code = 2 ∨ kind.code = 3 ∨ kind.code = 4

/-- `Step()` leaves `DIAG` alone, or it is the fetch phase and one raised fault, which names the fetched word: a word that is
rejected is not executed, and an instruction that faults has that word as its encoding. -/
theorem cycle_diag_eq_or_raiseFault {s t : State} (h : cycle s = .next t) :
    t.diag = s.diag ∨ ∃ kind : FaultKind, kind.RaisedByStep ∧ t = raiseFault kind (fetchWord s) s.advancePc := by
  have hfit := answerFits_decode (fetchWord s)
  rw [cycle] at h
  cases hdec : decode (fetchWord s) with
  | error r =>
    rw [hdec] at h hfit
    obtain rfl : r = _ := hfit
    cases h
    exact .inr ⟨.unhandledOperand, .inl rfl, rfl⟩
  | ok i =>
    rw [hdec] at h hfit
    obtain ⟨-, hdiag | ⟨-, ht⟩ | ⟨-, ht⟩⟩ := exec_effect h
    · exact .inl hdiag
    · exact .inr ⟨.stackUnderflow, .inr (.inl rfl), hfit ▸ ht⟩
    · exact .inr ⟨.stackOverflow, .inr (.inr rfl), hfit ▸ ht⟩

/-- Settles O11: a step event that changes `DIAG` samples its inputs, advances `pc` and raises one fault; the record's address is
`pc - 2` at the raise, which is where the word was fetched. -/
theorem faultHasNoOtherEffect : Obligations.FaultHasNoOtherEffect := by
  intro s t keys rnd h hchanged
  obtain hdiag | ⟨kind, hkind, rfl⟩ := cycle_diag_eq_or_raiseFault h
  · exact absurd hdiag hchanged
  · refine ⟨rfl, ⟨_, rfl, hkind, pc_back s.pc, rfl⟩, ?frame⟩
    have hframe := ((onlyChanges_present s keys rnd).trans (onlyChanges_setPc _ (s.pc + 2))).trans
      (onlyChanges_raiseFault kind (fetchWord s) _)
    exact hframe.mono fun p hp => by tauto

/-! ### Ticks -/

theorem toNat_countDown (t : Byte) : (countDown t).toNat = t.toNat - 1 := by
  rw [countDown_eq, countDownBy_eq, BitVec.toNat_ofNat]
  omega

/-- Settles O56: a tick is one write of each timer; Nat subtraction, like `countDown`, stops at 0. -/
theorem tickCountsDown : Obligations.TickCountsDown := by
  intro s
  exact ⟨tick s, rfl, toNat_countDown s.dt, toNat_countDown s.st,
    (onlyChanges_setDt s (countDown s.dt)).trans (onlyChanges_setSt _ (countDown s.st))⟩

end Sys2Proof.Machine
end

section
/-! The step event (70_reset_and_hazards.md R185): the two ways of `Step()`, a word that decodes and a word that is reserved. -/

namespace Sys2Proof.Machine

/-- A word that decodes has its operation performed, with `pc` already advanced. -/
theorem cycle_of_ok {s : State} {i : Instr} (h : decode (fetchWord s) = .ok i) : cycle s = exec i s.advancePc := by
  rw [cycle, h]

/-- A word that is rejected is a reserved one, so the step raises `UnhandledOperand` (30_encoding.md R68, R69). -/
theorem cycle_of_error {s : State} {r : Reject} (h : decode (fetchWord s) = .error r) :
    cycle s = .next (raiseFault .unhandledOperand (fetchWord s) s.advancePc) := by
  have hfit := answerFits_decode (fetchWord s)
  rw [h] at hfit
  obtain rfl : r = .unhandledOperand (fetchWord s) := hfit
  rw [cycle, h]
  rfl

theorem raiseFault_diag_ne (kind : FaultKind) (w : Word) (s : State) : (raiseFault kind w s).diag ≠ s.diag := by
  simp [raiseFault]

/-- Settles O7: the step event is `Step()` on the state with its inputs sampled, and the word fetched there is the one at `pc`. The
record of a reserved word changes `DIAG`, so the step has no other effect (`faultHasNoOtherEffect`). -/
theorem stepEventRunsWord : Obligations.StepEventRunsWord := by
  intro s keys rnd
  refine ⟨fun i hdec => cycle_of_ok (s := s.present keys rnd) hdec, fun r hdec => ?reserved⟩
  case reserved =>
    have hstep := cycle_of_error (s := s.present keys rnd) hdec
    obtain ⟨hpc, -, hframe⟩ := faultHasNoOtherEffect s _ keys rnd hstep (raiseFault_diag_ne _ _ _)
    exact ⟨_, hstep, hpc, rfl, rfl, ⟨_, rfl, rfl, pc_back s.pc, rfl⟩, hframe⟩

end Sys2Proof.Machine
end

section
/-! The round trip of decoder and encoder, and the reserved words (30_encoding.md R61 to R69). -/

namespace Sys2Proof

open Machine

/-- Settles O1: each field that the layout of a constructor puts in is the field that the decoder takes out (`decode_encode`). -/
theorem decodeEncode : Obligations.DecodeEncode := decode_encode

/-- Settles O2: what the decoder answers fits the word (`answerFits_decode`), and for an instruction that is to say that the word
is its encoding. -/
theorem encodeDecode : Obligations.EncodeDecode := by
  intro w i h
  have hfit := answerFits_decode w
  rwa [h] at hfit

/-- Settles O4: the same for a rejection, which fits the word only as `UnhandledOperand` of it. -/
theorem rejectedIsReserved : Obligations.RejectedIsReserved := by
  intro w r h
  have hfit := answerFits_decode w
  rwa [h] at hfit

/-- Settles O6: the decoder run on the twelve words. -/
theorem sampleWords : Obligations.SampleWords := by
  unfold Obligations.SampleWords
  decide

end Sys2Proof
end

section
/-! The call stack (10_state.md R19; 40_flow.md R80, R82, R89): the list of its live cells, and the two instructions that use it. -/

namespace Sys2Proof.Machine

/-! ### The live cells -/

/-- The stack as a list of its live cells, those below `SP`, oldest first. -/
def State.liveCells (s : State) : List Word := s.stack.toList.take s.sp.val

theorem length_liveCells (s : State) : s.liveCells.length = s.sp.val := by
  have hsp := s.sp.isLt
  rw [State.liveCells, List.length_take, Vector.length_toList]
  omega

theorem sp_eq_of_liveCells {s t : State} (h : t.liveCells = s.liveCells) : t.sp = s.sp := by
  apply Fin.ext
  rw [← length_liveCells, ← length_liveCells, h]

theorem push_of_free {s : State} (a : Word) (h : s.sp.val < 16) :
    s.push a = some { s with stack := s.stack.set s.sp.val a h, sp := ⟨s.sp.val + 1, by omega⟩ } :=
  dif_pos h

theorem pop_of_nonempty {s : State} (h : 0 < s.sp.val) :
    s.pop = some (s.stack[s.sp.val - 1]'(by omega), { s with sp := ⟨s.sp.val - 1, by omega⟩ }) :=
  dif_pos h

/-- With a free cell a push succeeds, and the address is the new last live cell. -/
theorem push_liveCells {s : State} (a : Word) (h : s.sp.val < 16) :
    ∃ t, s.push a = some t ∧ t.liveCells = s.liveCells ++ [a] := by
  refine ⟨_, push_of_free a h, ?_⟩
  simp [State.liveCells, List.take_add_one, Vector.toList_set, List.take_set_of_le, h]

/-- A pop takes the last live cell. -/
theorem pop_liveCells {s : State} {l : List Word} {a : Word} (h : s.liveCells = l ++ [a]) :
    ∃ t, s.pop = some (a, t) ∧ t.liveCells = l := by
  have hlen : s.sp.val = l.length + 1 := by
    rw [← length_liveCells, h, List.length_append, List.length_singleton]
  have hpos : 0 < s.sp.val := by omega
  have hsplit := List.take_concat_get' s.stack.toList (s.sp.val - 1) (by simp; omega)
  rw [Nat.sub_add_cancel hpos] at hsplit
  obtain ⟨hl, ha⟩ := List.append_inj' (hsplit.trans h) rfl
  obtain rfl : s.stack[s.sp.val - 1] = a := by simpa using ha
  exact ⟨_, pop_of_nonempty hpos, hl⟩

theorem pushAll_liveCells (ps : List Word) {s : State} (h : s.sp.val + ps.length ≤ 16) :
    ∃ t, Claims.pushAll ps s = some t ∧ t.liveCells = s.liveCells ++ ps := by
  induction ps generalizing s with
  | nil => exact ⟨s, rfl, (List.append_nil _).symm⟩
  | cons a ps ih =>
    rw [List.length_cons] at h
    obtain ⟨t, ht, hlive⟩ := push_liveCells a (s := s) (by omega)
    have hsp : t.sp.val = s.sp.val + 1 := by
      rw [← length_liveCells, hlive, List.length_append, length_liveCells, List.length_singleton]
    obtain ⟨u, hu, hlive'⟩ := ih (s := t) (by omega)
    refine ⟨u, ?_, ?_⟩
    · rw [Claims.pushAll, ht, Option.bind_some, hu]
    · rw [hlive', hlive, List.append_assoc, List.singleton_append]

/-- The pops meet the live cells from the last one on, so the induction takes the list from its end. -/
theorem popAll_liveCells (ps : List Word) {t : State} {l : List Word} (h : t.liveCells = l ++ ps) :
    ∃ u, Claims.popAll ps.length t = some (ps.reverse, u) ∧ u.liveCells = l := by
  induction ps using List.reverseRecOn generalizing t with
  | nil => exact ⟨t, rfl, h.trans (List.append_nil l)⟩
  | append_singleton ps a ih =>
    obtain ⟨t', ht', hlive⟩ := pop_liveCells (h.trans (List.append_assoc l ps [a]).symm)
    obtain ⟨u, hu, hlive'⟩ := ih hlive
    refine ⟨u, ?_, hlive'⟩
    rw [List.length_append, List.length_singleton, Claims.popAll, ht', Option.bind_some, hu, Option.map_some,
      List.reverse_append, List.reverse_singleton, List.singleton_append]

/-- Settles O32: pushes append to the live cells and pops take from their end, so after both the live cells are as before, and
`SP` is their number. -/
theorem stackLaw : Obligations.StackLaw := by
  refine ⟨fun ps s hfree => ?_, fun s => pop_eq_none.mpr⟩
  obtain ⟨t, hpush, hlive⟩ := pushAll_liveCells ps hfree
  obtain ⟨u, hpop, hlive'⟩ := popAll_liveCells ps hlive
  exact ⟨t, u, hpush, hpop, sp_eq_of_liveCells hlive'⟩

/-! ### RET -/

theorem onlyChanges_setSp (s : State) (n : Fin 17) : OnlyChanges (fun p => p = .sp) s { s with sp := n } := by
  intro p hp
  cases p
  case sp => exact absurd rfl hp
  case ports => exact ⟨rfl, rfl⟩
  case env => exact ⟨rfl, rfl⟩
  all_goals rfl

/-- The word that the record of an underflow names is the encoding of `RET` (log entry 10). -/
theorem exec_ret_of_empty {s : State} (h : s.sp.val = 0) :
    exec .ret s = .next (raiseFault .stackUnderflow 0x00EE s) := by
  change execRet s = _
  rw [execRet, pop_eq_none.mpr h]
  rfl

theorem exec_ret_of_nonempty {s : State} (h : 0 < s.sp.val) :
    exec .ret s = .next { s with sp := ⟨s.sp.val - 1, by omega⟩, pc := s.stack[s.sp.val - 1]'(by omega) } := by
  change execRet s = _
  rw [execRet, pop_of_nonempty h]

/-- Settles O27: a pop writes `SP` and no cell, and the jump back writes `pc`; on an empty stack the whole effect is the raised
fault. -/
theorem retResult : Obligations.RetResult := by
  intro s
  constructor
  · intro hne
    have hpos : 0 < s.sp.val := Nat.pos_of_ne_zero hne
    refine ⟨_, exec_ret_of_nonempty hpos, Nat.sub_add_cancel hpos, Vector.getElem?_eq_getElem _, ?frame⟩
    case frame => exact ((onlyChanges_setSp s ⟨s.sp.val - 1, by omega⟩).trans (onlyChanges_setPc _ _)).mono fun _ hp => hp.symm
  · intro hempty
    exact ⟨_, exec_ret_of_empty hempty, ⟨_, rfl, rfl, rfl, rfl⟩, onlyChanges_raiseFault _ _ s⟩

/-! ### CALL -/

theorem onlyChanges_setCell (s : State) (n : Nat) (a : Word) (hn : n < 16) :
    OnlyChanges (fun p => ∃ k : Fin 16, k.val = n ∧ p = .cell k) s { s with stack := s.stack.set n a hn } := by
  intro p hp
  cases p
  case cell k =>
    have hk : n ≠ k.val := fun h => hp ⟨k, h.symm, rfl⟩
    exact Vector.getElem_set_ne hn k.isLt hk
  case ports => exact ⟨rfl, rfl⟩
  case env => exact ⟨rfl, rfl⟩
  all_goals rfl

theorem exec_call_of_full {s : State} (nnn : Addr) (h : s.sp.val = 16) :
    exec (.call nnn) s = .next (raiseFault .stackOverflow (encode (.call nnn)) s) := by
  change execCall nnn s = _
  rw [execCall, push_eq_none.mpr h]

theorem exec_call_of_free {s : State} (nnn : Addr) (h : s.sp.val < 16) : exec (.call nnn) s = .next { s with
    stack := s.stack.set s.sp.val s.pc h, sp := ⟨s.sp.val + 1, by omega⟩, pc := addrWord nnn } := by
  change execCall nnn s = _
  rw [execCall, push_of_free s.pc h]

theorem toNat_encode_call (nnn : Addr) : (encode (.call nnn)).toNat = 0x2000 + nnn.toNat :=
  toNat_layoutA 0x2#4 nnn

/-- Settles O29: a push writes the one cell at `SP`, and `SP`, and the jump writes `pc`; on a full stack the whole effect is the
raised fault, whose word is the encoding of the call. -/
theorem callResult : Obligations.CallResult := by
  intro nnn s
  constructor
  · intro hfree
    refine ⟨_, exec_call_of_free nnn hfree, ?cell, rfl, toNat_addrWord nnn, ?frame⟩
    case cell => simp
    case frame =>
      have hframe := ((onlyChanges_setCell s s.sp.val s.pc hfree).trans
        (onlyChanges_setSp _ ⟨s.sp.val + 1, by omega⟩)).trans (onlyChanges_setPc _ (addrWord nnn))
      exact hframe.mono fun p hp => by tauto
  · intro hfull
    exact ⟨_, exec_call_of_full nnn hfull, ⟨_, rfl, rfl, rfl, toNat_encode_call nnn⟩, onlyChanges_raiseFault _ _ s⟩

/-- Settles O31: the call left its return address in the cell below `SP`, where the return finds it, and neither wrote a cell
that was live before. -/
theorem retMatchesCall : Obligations.RetMatchesCall := by
  intro nnn s hfree
  obtain ⟨t, hcall, hcell, hsp, -, hframe⟩ := (callResult nnn s).1 hfree
  refine ⟨t, hcall, fun u husp hustack => ?_⟩
  have hne : u.sp.val ≠ 0 := by
    rw [husp]
    omega
  obtain ⟨w, hret, hwsp, hwpc, hwframe⟩ := (retResult u).1 hne
  have hsp' : w.sp.val = s.sp.val := by
    rw [husp] at hwsp
    omega
  refine ⟨w, hret, ?pc, Fin.ext hsp', fun k hk => ?cells⟩
  case pc =>
    rw [hustack, hsp', hcell] at hwpc
    exact (Option.some.inj hwpc).symm
  case cells =>
    have hkept : Same u w (.cell k) := hwframe _ (by simp)
    have hkept' : Same s t (.cell k) := hframe _ (by simp; omega)
    calc w.stack[k.val] = u.stack[k.val] := hkept
      _ = t.stack[k.val] := by simp only [hustack]
      _ = s.stack[k.val] := hkept'

end Sys2Proof.Machine
end

section
/-! Who writes what (10_state.md R12 to R30): one table of the parts that each instruction may change, and that no instruction
changes another part. -/

namespace Sys2Proof.Machine

/-- The parts of the state that the execute phase of an instruction may change (10_state.md R30, the column "Written by"). -/
def MayWrite (i : Instr) : Part → Prop
  | .reg r => destination i r = true ∨ (r = 15 ∧ writesFlag i = true)
  | .pc => movesPc i = true
  | .i => (∃ a, i = .ldI a) ∨ ∃ x, i = .addIVx x ∨ i = .ldFVx x
  | .sp | .cell _ | .diag => i = .ret ∨ ∃ a, i = .call a
  | .byte _ => ∃ x, i = .ldBVx x ∨ i = .storeRegs x
  | .pixel _ => i = .cls ∨ ∃ x y n, i = .drw x y n
  | .dt => ∃ x, i = .ldDtVx x
  | .st => ∃ x, i = .ldStVx x
  | .ports | .env => False

/-! ### The table, for each kind of update -/

section
variable {i : Instr} (s : State)

theorem onlyWrites_setV {x : Reg} (hx : destination i x = true) (b : Byte) : OnlyChanges (MayWrite i) s (s.setV x b) := by
  refine (onlyChanges_setV s x b).mono ?_
  rintro p rfl
  exact .inl hx

theorem onlyWrites_setResultFlag {x : Reg} (hx : destination i x = true) (hflag : writesFlag i = true) (b : Byte) (f : Bool) :
    OnlyChanges (MayWrite i) s (s.setResultFlag x b f) := by
  refine (onlyChanges_setResultFlag s x b f).mono ?_
  rintro p (rfl | rfl)
  · exact .inl hx
  · exact .inr ⟨rfl, hflag⟩

theorem onlyWrites_setPc (hpc : movesPc i = true) (a : Word) : OnlyChanges (MayWrite i) s { s with pc := a } := by
  refine (onlyChanges_setPc s a).mono ?_
  rintro p rfl
  exact hpc

theorem onlyWrites_skipIf (hpc : movesPc i = true) (c : Bool) : OnlyChanges (MayWrite i) s (s.skipIf c) := by
  refine (onlyChanges_skipIf s c).mono ?_
  rintro p rfl
  exact hpc

theorem onlyWrites_setI (hi : MayWrite i .i) (a : Word) : OnlyChanges (MayWrite i) s { s with i := a } := by
  refine (onlyChanges_setI s a).mono ?_
  rintro p rfl
  exact hi

theorem onlyWrites_writeList (hi : ∃ x, i = .ldBVx x ∨ i = .storeRegs x) (bs : List Byte) (hl : bs.length ≤ 4096) :
    OnlyChanges (MayWrite i) s { s with mem := s.mem.writeList (s.effAddr 0) bs } := by
  refine (onlyChanges_writeList s bs hl).mono ?_
  rintro p ⟨k, -, rfl⟩
  exact hi

end

/-! ### The instructions with more than one case or more than one update -/

/-- An instruction that answers a state of which `P` holds answers no other. -/
theorem Ends.of_next {o : Host.Outcome State Fault Refusal} {P : State → Prop} {t : State} (h : Ends o P) (ht : o = .next t) :
    P t := by
  obtain ⟨u, hu, hP⟩ := h
  cases hu.symm.trans ht
  exact hP

theorem exec_ret_onlyWrites {s t : State} (h : exec .ret s = .next t) : OnlyChanges (MayWrite .ret) s t := by
  obtain ⟨hpop, hempty⟩ := retResult s
  by_cases hsp : s.sp.val = 0
  · obtain ⟨-, hframe⟩ := (hempty hsp).of_next h
    refine hframe.mono ?_
    rintro p rfl
    exact .inl rfl
  · obtain ⟨-, -, hframe⟩ := (hpop hsp).of_next h
    refine hframe.mono ?_
    rintro p (rfl | rfl)
    · rfl
    · exact .inl rfl

theorem exec_call_onlyWrites {nnn : Addr} {s t : State} (h : exec (.call nnn) s = .next t) :
    OnlyChanges (MayWrite (.call nnn)) s t := by
  obtain ⟨hpush, hfull⟩ := callResult nnn s
  by_cases hsp : s.sp.val = 16
  · obtain ⟨-, hframe⟩ := (hfull hsp).of_next h
    refine hframe.mono ?_
    rintro p rfl
    exact .inr ⟨nnn, rfl⟩
  · obtain ⟨-, -, -, hframe⟩ := (hpush (by omega)).of_next h
    refine hframe.mono ?_
    rintro p (rfl | rfl | ⟨k, -, rfl⟩)
    · rfl
    · exact .inr ⟨nnn, rfl⟩
    · exact .inr ⟨nnn, rfl⟩

theorem exec_drw_onlyWrites {x y : Reg} {n : Nibble} {s t : State} (h : exec (.drw x y n) s = .next t) :
    OnlyChanges (MayWrite (.drw x y n)) s t := by
  obtain ⟨-, -, -, hframe⟩ := (drawSprite_spec x y n s).of_next h
  refine hframe.mono ?_
  rintro p (rfl | ⟨k, rfl⟩)
  · exact .inr ⟨rfl, rfl⟩
  · exact .inr ⟨x, y, n, rfl⟩

theorem exec_loadRegs_onlyWrites {x : Reg} {s t : State} (h : exec (.loadRegs x) s = .next t) :
    OnlyChanges (MayWrite (.loadRegs x)) s t := by
  obtain ⟨-, hframe⟩ := (blockLoad x s).of_next h
  refine hframe.mono ?_
  rintro p ⟨k, hk, rfl⟩
  exact .inl (decide_eq_true hk)

theorem exec_ldVxK_onlyWrites {x : Reg} {s t : State} (h : exec (.ldVxK x) s = .next t) :
    OnlyChanges (MayWrite (.ldVxK x)) s t := by
  cases hkey : s.firstHeldKey with
  | none =>
    cases (exec_ldVxK_of_none x hkey).symm.trans h
    exact onlyWrites_setPc s rfl (s.pc - 2)
  | some k =>
    cases (exec_ldVxK_of_some x hkey).symm.trans h
    exact onlyWrites_setV s (by exact beq_self_eq_true x) _

/-! ### All instructions -/

/-- The frame of the execute phase: no instruction changes a part that the table does not give it. -/
theorem exec_onlyWrites {i : Instr} {s t : State} (h : exec i s = .next t) : OnlyChanges (MayWrite i) s t := by
  cases i
  case ret => exact exec_ret_onlyWrites h
  case call nnn => exact exec_call_onlyWrites h
  case drw x y n => exact exec_drw_onlyWrites h
  case loadRegs x => exact exec_loadRegs_onlyWrites h
  case ldVxK x => exact exec_ldVxK_onlyWrites h
  all_goals cases h
  case cls =>
    refine (onlyChanges_setFb s clearFrame).mono ?_
    rintro p ⟨k, rfl⟩
    exact .inl rfl
  case jp nnn | jpV0 nnn => exact onlyWrites_setPc s rfl _
  case seImm | sneImm | seReg | sneReg | skp | sknp => exact onlyWrites_skipIf s rfl _
  case ldImm x _ | addImm x _ | ldReg x _ | rnd x _ | ldVxDt x => exact onlyWrites_setV s (by exact beq_self_eq_true x) _
  case orReg x y | andReg x y | xorReg x y | addReg x y | subReg x y | shrReg x y | subnReg x y | shlReg x y =>
    exact onlyWrites_setResultFlag s (by exact beq_self_eq_true x) rfl _ _
  case ldI nnn => exact onlyWrites_setI s (.inl ⟨nnn, rfl⟩) _
  case addIVx x => exact onlyWrites_setI s (.inr ⟨x, .inl rfl⟩) _
  case ldFVx x => exact onlyWrites_setI s (.inr ⟨x, .inr rfl⟩) _
  case ldBVx x => exact onlyWrites_writeList s ⟨x, .inl rfl⟩ (bcdDigits (s.v x)) (by rw [bcdDigits_length]; decide)
  case storeRegs x =>
    exact onlyWrites_writeList s ⟨x, .inr rfl⟩ (s.regBlock x) (by rw [regBlock_length]; omega)
  case ldDtVx x =>
    refine (onlyChanges_setDt s _).mono ?_
    rintro p rfl
    exact ⟨x, rfl⟩
  case ldStVx x =>
    refine (onlyChanges_setSt s _).mono ?_
    rintro p rfl
    exact ⟨x, rfl⟩

/-! ### The statements, column by column of the table -/

/-- Settles O20: the column of the registers. -/
theorem registerWriters : Obligations.RegisterWriters := by
  intro i s t r h hdest hflag
  refine exec_onlyWrites h (.reg r) ?_
  rintro (hd | ⟨hr, hf⟩)
  · rw [hdest] at hd
    cases hd
  · rw [hflag hr] at hf
    cases hf

/-- A byte is one of the 4096 that `Same` compares, at whatever address it is read. -/
theorem read_eq_of_same {s t : State} (h : ∀ a, Same s t (.byte a)) (a : Nat) : t.mem.read a = s.mem.read a := by
  have ha := h (BitVec.ofNat 12 a)
  rw [Same, BitVec.toNat_ofNat, read_mod, read_mod] at ha
  exact ha

/-- A pixel is one of the 2048 that `Same` compares, or lies beyond the grid, where every framebuffer reads 0. -/
theorem pixel_eq_of_same {s t : State} (h : ∀ p, Same s t (.pixel p)) (p : Nat) : t.fb.pixel p = s.fb.pixel p := by
  by_cases hp : p < 2048
  · exact h ⟨p, hp⟩
  · rw [pixel_outside _ _ (by omega), pixel_outside _ _ (by omega)]

/-- Settles O21: the columns of memory and of the framebuffer. -/
theorem storeWriters : Obligations.StoreWriters := by
  intro i s t h
  have hframe := exec_onlyWrites h
  refine ⟨fun hno => read_eq_of_same fun a => hframe _ ?_, fun ⟨hcls, hdrw⟩ => pixel_eq_of_same fun p => hframe _ ?_⟩
  · rintro ⟨x, hi | hi⟩
    · exact (hno x).1 hi
    · exact (hno x).2 hi
  · rintro (hi | ⟨x, y, n, hi⟩)
    · exact hcls hi
    · exact hdrw x y n hi

/-- Settles O22: the columns of `SP`, of the cells and of `DIAG`, which name the same two instructions. -/
theorem stackWriters : Obligations.StackWriters := by
  intro i s t h hret hcall
  have hframe := exec_onlyWrites h
  have hno : ¬ (i = .ret ∨ ∃ a, i = .call a) := by
    rintro (hi | ⟨a, hi⟩)
    · exact hret hi
    · exact hcall a hi
  exact ⟨hframe .sp hno, Vector.ext fun k hk => hframe (.cell ⟨k, hk⟩) hno, hframe .diag hno⟩

/-- Settles O23: the columns of `I`, `DT` and `ST`. -/
theorem indexTimerWriters : Obligations.IndexTimerWriters := by
  intro i s t h
  have hframe := exec_onlyWrites h
  refine ⟨fun hldI hadd => hframe .i ?_, fun hno => hframe .dt fun ⟨x, hi⟩ => hno x hi,
    fun hno => hframe .st fun ⟨x, hi⟩ => hno x hi⟩
  rintro (⟨a, hi⟩ | ⟨x, hi | hi⟩)
  · exact hldI a hi
  · exact (hadd x).1 hi
  · exact (hadd x).2 hi

theorem skipIf_pc_eq_or (s : State) (c : Bool) : (s.skipIf c).pc = s.pc ∨ (s.skipIf c).pc = s.pc + 2 := by
  cases c
  · exact .inl rfl
  · exact .inr rfl

/-- Settles O24: the column of `pc`; and each of the six skips is a `skipIf`. -/
theorem pcMovers : Obligations.PcMovers := by
  intro i s t h
  constructor
  · intro hno
    refine exec_onlyWrites h .pc fun hmoves => ?_
    cases hno.symm.trans hmoves
  · rintro (⟨x, kk, rfl | rfl⟩ | ⟨x, y, rfl | rfl⟩ | ⟨x, rfl | rfl⟩) <;> cases h <;> exact skipIf_pc_eq_or s _

end Sys2Proof.Machine
end

section
/-! Who reads what (10_state.md R24, R25; 60_exceptions.md R162): the sampled inputs and the timers are read by seven instructions,
the model's own queue by none. Any other instruction does the same whatever stands there, said once for a change of all of them. -/

namespace Sys2Proof.Machine

/-- A change of what the environment keeps in the state: the sampled inputs, the timers, and the model's queue and count. -/
structure OutsideMap where
  keys : BitVec 16 → BitVec 16
  rnd : Byte → Byte
  dt : Byte → Byte
  st : Byte → Byte
  inputs : List Input → List Input
  draws : Nat → Nat

/-- The change that changes nothing. -/
def OutsideMap.none : OutsideMap := ⟨id, id, id, id, id, id⟩

def State.mapOutside (s : State) (f : OutsideMap) : State := { s with
  keys := f.keys s.keys
  rnd := f.rnd s.rnd
  dt := f.dt s.dt
  st := f.st s.st
  inputs := f.inputs s.inputs
  draws := f.draws s.draws }

/-- What a change must leave alone for an instruction not to see it: the field that the instruction reads, and a timer that it
writes. -/
structure OutsideMap.Unseen (f : OutsideMap) (i : Instr) : Prop where
  keys : ∀ x, i = .skp x ∨ i = .sknp x ∨ i = .ldVxK x → f.keys = id
  rnd : ∀ x kk, i = .rnd x kk → f.rnd = id
  dt : ∀ x, i = .ldVxDt x ∨ i = .ldDtVx x → f.dt = id
  st : ∀ x, i = .ldStVx x → f.st = id

section
variable (s : State) (f : OutsideMap)

/-! ### The operations, from a state and from the changed one -/

theorem skipIf_mapOutside (c : Bool) : (s.mapOutside f).skipIf c = (s.skipIf c).mapOutside f := by
  cases c <;> rfl

theorem loadBlock_mapOutside (n : Nat) (h : n ≤ 16) : (s.mapOutside f).loadBlock n h = (s.loadBlock n h).mapOutside f := by
  induction n with
  | zero => rfl
  | succ n ih =>
    rw [State.loadBlock, ih]
    rfl

theorem keyHeld_mapOutside (hf : f.keys = id) (v : Byte) : (s.mapOutside f).keyHeld v = s.keyHeld v := by
  simp [State.mapOutside, hf]

theorem firstHeldKey_mapOutside (hf : f.keys = id) : (s.mapOutside f).firstHeldKey = s.firstHeldKey := by
  simp [firstHeldKey_eq_find, State.mapOutside, hf]

/-! ### The instructions -/

variable {s f} {t : State}

theorem exec_ret_mapOutside (h : exec .ret s = .next t) : exec .ret (s.mapOutside f) = .next (t.mapOutside f) := by
  rcases Nat.eq_zero_or_pos s.sp.val with hsp | hsp
  · cases (exec_ret_of_empty hsp).symm.trans h
    exact exec_ret_of_empty (s := s.mapOutside f) hsp
  · cases (exec_ret_of_nonempty hsp).symm.trans h
    exact exec_ret_of_nonempty (s := s.mapOutside f) hsp

theorem exec_call_mapOutside {nnn : Addr} (h : exec (.call nnn) s = .next t) :
    exec (.call nnn) (s.mapOutside f) = .next (t.mapOutside f) := by
  by_cases hsp : s.sp.val < 16
  · cases (exec_call_of_free nnn hsp).symm.trans h
    exact exec_call_of_free (s := s.mapOutside f) nnn hsp
  · have hfull : s.sp.val = 16 := by omega
    cases (exec_call_of_full nnn hfull).symm.trans h
    exact exec_call_of_full (s := s.mapOutside f) nnn hfull

theorem exec_ldVxK_mapOutside {x : Reg} (hf : f.keys = id) (h : exec (.ldVxK x) s = .next t) :
    exec (.ldVxK x) (s.mapOutside f) = .next (t.mapOutside f) := by
  have hkey := firstHeldKey_mapOutside s f hf
  cases hk : s.firstHeldKey with
  | none =>
    cases (exec_ldVxK_of_none x hk).symm.trans h
    exact exec_ldVxK_of_none x (hkey.trans hk)
  | some k =>
    cases (exec_ldVxK_of_some x hk).symm.trans h
    exact exec_ldVxK_of_some x (hkey.trans hk)

/-- An instruction does not see a change outside of what it reads: executed from the changed state it ends in the changed result. -/
theorem exec_mapOutside {i : Instr} (hf : f.Unseen i) (h : exec i s = .next t) :
    exec i (s.mapOutside f) = .next (t.mapOutside f) := by
  cases i
  case ret => exact exec_ret_mapOutside h
  case call nnn => exact exec_call_mapOutside h
  case ldVxK x => exact exec_ldVxK_mapOutside (hf.keys x (.inr (.inr rfl))) h
  case loadRegs x =>
    cases (exec_loadRegs_eq x s).symm.trans h
    rw [exec_loadRegs_eq, loadBlock_mapOutside]
  all_goals cases h
  case seImm | sneImm | seReg | sneReg => exact congrArg Host.Outcome.next (skipIf_mapOutside s f _)
  case skp x =>
    have hkey := keyHeld_mapOutside s f (hf.keys x (.inl rfl)) (s.v x)
    exact congrArg Host.Outcome.next (hkey ▸ skipIf_mapOutside s f _)
  case sknp x =>
    have hkey := keyHeld_mapOutside s f (hf.keys x (.inr (.inl rfl))) (s.v x)
    exact congrArg Host.Outcome.next (hkey ▸ skipIf_mapOutside s f _)
  case rnd x kk =>
    have hrnd : f.rnd s.rnd = s.rnd := congrFun (hf.rnd x kk rfl) s.rnd
    exact congrArg (fun b => Host.Outcome.next ((s.mapOutside f).setV x (b &&& kk))) hrnd
  case ldVxDt x =>
    have hdt : f.dt s.dt = s.dt := congrFun (hf.dt x (.inl rfl)) s.dt
    exact congrArg (fun b => Host.Outcome.next ((s.mapOutside f).setV x b)) hdt
  case ldDtVx x =>
    have hdt : f.dt (s.v x) = s.v x := congrFun (hf.dt x (.inr rfl)) (s.v x)
    exact congrArg (fun b => Host.Outcome.next { s.mapOutside f with dt := b }) hdt.symm
  case ldStVx x =>
    have hst : f.st (s.v x) = s.v x := congrFun (hf.st x rfl) (s.v x)
    exact congrArg (fun b => Host.Outcome.next { s.mapOutside f with st := b }) hst.symm
  all_goals rfl

end

/-! ### The statements: one field changed to a value, every other left -/

/-- Settles O25: an instruction that is no reader of `KEYS`, or of `RND`, does not see a change of that input alone. -/
theorem inputReaders : Obligations.InputReaders := by
  intro i s t h
  refine ⟨fun hno k => exec_mapOutside (f := { OutsideMap.none with keys := fun _ => k }) ?keys h,
    fun hno b => exec_mapOutside (f := { OutsideMap.none with rnd := fun _ => b }) ?rnd h⟩
  case keys =>
    refine { keys := ?_, rnd := fun _ _ _ => rfl, dt := fun _ _ => rfl, st := fun _ _ => rfl }
    rintro x (hi | hi | hi)
    · exact absurd hi (hno x).1
    · exact absurd hi (hno x).2.1
    · exact absurd hi (hno x).2.2
  case rnd =>
    exact { keys := fun _ _ => rfl, rnd := fun x kk hi => absurd hi (hno x kk), dt := fun _ _ => rfl, st := fun _ _ => rfl }

/-- Settles O26: an instruction that neither reads nor writes a timer does not see a change of that timer alone. -/
theorem timerReaders : Obligations.TimerReaders := by
  intro i s t h
  refine ⟨fun hread hwrite d => exec_mapOutside (f := { OutsideMap.none with dt := fun _ => d }) ?dt h,
    fun hno d => exec_mapOutside (f := { OutsideMap.none with st := fun _ => d }) ?st h⟩
  case dt =>
    refine { keys := fun _ _ => rfl, rnd := fun _ _ _ => rfl, dt := ?_, st := fun _ _ => rfl }
    rintro x (hi | hi)
    · exact absurd hi (hread x)
    · exact absurd hi (hwrite x)
  case st =>
    exact { keys := fun _ _ => rfl, rnd := fun _ _ _ => rfl, dt := fun _ _ => rfl, st := fun x hi => absurd hi (hno x) }

end Sys2Proof.Machine
end

section
/-! Steps and histories (70_reset_and_hazards.md R184 to R187): every step goes on, the model's `step` is a history, and `DIAG` only
grows. -/

namespace Sys2Proof.Machine

/-! ### Every step goes on -/

theorem exec_goesOn (i : Instr) (s : State) : ∃ t, exec i s = .next t := by
  cases i
  case ret =>
    rcases Nat.eq_zero_or_pos s.sp.val with hsp | hsp
    · exact ⟨_, exec_ret_of_empty hsp⟩
    · exact ⟨_, exec_ret_of_nonempty hsp⟩
  case call nnn =>
    by_cases hsp : s.sp.val < 16
    · exact ⟨_, exec_call_of_free nnn hsp⟩
    · exact ⟨_, exec_call_of_full nnn (by omega)⟩
  all_goals exact ⟨_, rfl⟩

theorem cycle_goesOn (s : State) : ∃ t, cycle s = .next t := by
  cases h : decode (fetchWord s) with
  | ok i =>
    rw [cycle_of_ok h]
    exact exec_goesOn i s.advancePc
  | error r => exact ⟨_, cycle_of_error h⟩

/-- Settles O10: no instruction stops the machine, and a reserved word raises a fault that does not stop it either. -/
theorem stepAlwaysGoesOn : Obligations.StepAlwaysGoesOn := fun s => cycle_goesOn (takeInput s)

/-- Settles O8: `step` is `Step()` after `takeInput`, whose timers are counted down by Nat subtraction (`countDownBy_eq`). -/
theorem stepRunsDecoded : Obligations.StepRunsDecoded := by
  intro s i h
  have hstep : step s = exec i (takeInput s).advancePc := cycle_of_ok (s := takeInput s) h
  rw [hstep, ← countDownBy_eq, ← countDownBy_eq]
  rfl

/-! ### Histories -/

theorem runEvents_cons {e : Event} {s t : State} (h : transition e s = .next t) (es : List Event) :
    runEvents (e :: es) s = runEvents es t := by
  rw [runEvents, h]

/-- A history that ends in a state has passed a state after its first event. -/
theorem exists_of_runEvents_cons {e : Event} {es : List Event} {s t : State} (h : runEvents (e :: es) s = .next t) :
    ∃ u, transition e s = .next u ∧ runEvents es u = .next t := by
  cases he : transition e s with
  | next u => exact ⟨u, rfl, (runEvents_cons he es).symm.trans h⟩
  | fault f =>
    rw [runEvents, he] at h
    cases h
  | refused r =>
    rw [runEvents, he] at h
    cases h

/-- What holds at the start of a history and is kept by each of its events holds at its end. -/
theorem runEvents_induction {P : State → Prop} {es : List Event} {s t : State}
    (hkeep : ∀ e ∈ es, ∀ u v, P u → transition e u = .next v → P v) (hs : P s) (h : runEvents es s = .next t) : P t := by
  induction es generalizing s with
  | nil =>
    cases h
    exact hs
  | cons e es ih =>
    obtain ⟨u, he, hrest⟩ := exists_of_runEvents_cons h
    exact ih (fun e' he' => hkeep e' (List.mem_cons_of_mem e he')) (hkeep e List.mem_cons_self s u hs he) hrest

/-- Ticks at the start of a history pass one after another. -/
theorem runEvents_ticks (k : Nat) (es : List Event) (s : State) :
    runEvents (List.replicate k .tick ++ es) s = runEvents es (ticks k s) := by
  induction k generalizing s with
  | zero => rw [ticks_zero, List.replicate_zero, List.nil_append]
  | succ k ih => rw [List.replicate_succ, List.cons_append, runEvents_cons (t := tick s) rfl, ih, ticks_succ]

theorem toNat_countDownBy (k : Nat) (t : Byte) : (countDownBy k t).toNat = t.toNat - k := by
  rw [countDownBy_eq, BitVec.toNat_ofNat]
  omega

/-- Settles O57: a history of ticks alone is the case of no further events. -/
theorem ticksElapse : Obligations.TicksElapse := by
  intro k s
  refine ⟨?_, toNat_countDownBy k s.dt, toNat_countDownBy k s.st⟩
  rw [← List.append_nil (List.replicate k Event.tick), runEvents_ticks, runEvents]

/-! ### The model's step as a history -/

/-- A change that no instruction sees is not seen by fetch and decode either. -/
theorem cycle_mapOutside {f : OutsideMap} (hf : ∀ i, f.Unseen i) {s t : State} (h : cycle s = .next t) :
    cycle (s.mapOutside f) = .next (t.mapOutside f) := by
  cases hdec : decode (fetchWord s) with
  | ok i =>
    rw [cycle_of_ok hdec] at h
    rw [cycle_of_ok (s := s.mapOutside f) hdec]
    exact exec_mapOutside (hf i) h
  | error r =>
    cases (cycle_of_error hdec).symm.trans h
    exact cycle_of_error (s := s.mapOutside f) hdec

/-- The queue moved on by one input, and the count with it. -/
def OutsideMap.nextTurn (s : State) : OutsideMap :=
  { OutsideMap.none with inputs := fun _ => s.inputs.tail, draws := fun _ => s.draws + 1 }

theorem OutsideMap.nextTurn_unseen (s : State) (i : Instr) : (OutsideMap.nextTurn s).Unseen i :=
  ⟨fun _ _ => rfl, fun _ _ _ => rfl, fun _ _ => rfl, fun _ _ => rfl⟩

/-- Settles O9: the history lets the ticks pass, samples the inputs and runs `Step()`; `step` does the same from the state with its
queue moved on, which `Step()` does not see. -/
theorem stepIsHistory : Obligations.StepIsHistory := by
  intro s
  obtain ⟨u, hu⟩ := cycle_goesOn ((ticks (nextInput s).ticks s).present (nextInput s).keys (nextInput s).rnd)
  refine ⟨_, cycle_mapOutside (OutsideMap.nextTurn_unseen s) hu, u, ?history, rfl⟩
  case history => rw [runEvents_ticks, runEvents_cons (e := .step _ _) (s := ticks _ s) hu, runEvents]

/-! ### DIAG -/

theorem cycle_diag {s t : State} (h : cycle s = .next t) :
    ∃ new : List DiagRecord, t.diag = s.diag ++ new ∧ new.length ≤ 1 := by
  obtain hdiag | ⟨kind, -, rfl⟩ := cycle_diag_eq_or_raiseFault h
  · exact ⟨[], by rw [hdiag, List.append_nil], Nat.zero_le 1⟩
  · exact ⟨_, raiseFault_diag _ _ _, Nat.le_refl 1⟩

/-- Settles O12: `step` is `Step()` on a state with the same `DIAG`. -/
theorem diagAppendOnly : Obligations.DiagAppendOnly := fun s _ h => cycle_diag (s := takeInput s) h

theorem loadImage_eq_next {image : List Byte} {s t : State} (h : loadImage image s = .next t) :
    t = { s with mem := s.mem.writeList 0x200 image } := by
  unfold loadImage at h
  split at h
  · cases h
  · exact (Host.Outcome.next.inj h).symm

/-- Reset is the one event that takes records away (60_exceptions.md R152). -/
theorem transition_diag_extends {e : Event} (he : e ≠ .reset) {s t : State} (h : transition e s = .next t) :
    s.diag <+: t.diag := by
  cases e with
  | step keys rnd =>
    obtain ⟨new, hnew, -⟩ := cycle_diag (s := s.present keys rnd) h
    exact ⟨new, hnew.symm⟩
  | tick =>
    cases h
    exact ⟨[], List.append_nil s.diag⟩
  | reset => exact absurd rfl he
  | loadImage image =>
    rw [loadImage_eq_next h]

/-- Settles O13: that `DIAG` begins with the starting records is kept by every event but reset. -/
theorem faultsStayVisible : Obligations.FaultsStayVisible := by
  intro es s t hno h
  have hkept : s.diag <+: t.diag := by
    refine runEvents_induction (P := fun u => s.diag <+: u.diag) (fun e he u v hu hv => ?_) ⟨[], List.append_nil s.diag⟩ h
    exact hu.trans (transition_diag_extends (ne_of_mem_of_not_mem he hno) hv)
  obtain ⟨new, hnew⟩ := hkept
  exact ⟨new, hnew.symm⟩

end Sys2Proof.Machine
end

section
/-! The invariant (20_memory.md; 60_exceptions.md R151, R159; log entry 7): every event keeps memory canonical and appends to
`DIAG` only records that a step can raise. -/

namespace Sys2Proof.Machine

/-- The invariant is about memory and `DIAG` alone. -/
theorem Inv.congr {s t : State} (h : Inv s) (hmem : t.mem = s.mem) (hdiag : t.diag = s.diag) : Inv t := by
  rwa [Inv, hmem, hdiag]

theorem Inv.raiseFault {s : State} (h : Inv s) {kind : FaultKind} {w : Word} (hok : RecordOk ⟨kind, s.pc - 2, w⟩) :
    Inv (raiseFault kind w s) := by
  obtain ⟨hmem, hdiag⟩ := h
  refine ⟨hmem, fun r hr => ?_⟩
  rw [raiseFault_diag, List.mem_append, List.mem_singleton] at hr
  rcases hr with hr | rfl
  · exact hdiag r hr
  · exact hok

/-- Settles O16: nothing is listed, and `DIAG` is empty. -/
theorem resetInv : Obligations.ResetInv := ⟨reset_mem_wf, fun _ hr => absurd hr List.not_mem_nil⟩

theorem exec_inv {i : Instr} {s t : State} (hs : Inv s) (h : exec i s = .next t) : Inv t := by
  obtain ⟨hmem, hdiag | ⟨rfl, rfl⟩ | ⟨⟨nnn, rfl⟩, rfl⟩⟩ := exec_effect h
  · refine ⟨hmem hs.1, ?_⟩
    rw [hdiag]
    exact hs.2
  · exact hs.raiseFault rfl
  · exact hs.raiseFault ⟨nnn, decode_encode (.call nnn)⟩

theorem cycle_inv {s t : State} (hs : Inv s) (h : cycle s = .next t) : Inv t := by
  have hfetched : Inv s.advancePc := hs.congr rfl rfl
  cases hdec : decode (fetchWord s) with
  | ok i =>
    rw [cycle_of_ok hdec] at h
    exact exec_inv hfetched h
  | error r =>
    cases (cycle_of_error hdec).symm.trans h
    obtain rfl : r = .unhandledOperand (fetchWord s) := rejectedIsReserved _ r hdec
    exact hfetched.raiseFault hdec

/-- Settles O17: taking the input touches neither memory nor `DIAG`, and `Step()` keeps the invariant. -/
theorem stepKeepsInv : Obligations.StepKeepsInv := fun s _ hs h =>
  cycle_inv (s := takeInput s) (hs.congr rfl rfl) h

/-- Settles O18: a step event is `Step()` on the state with its inputs sampled, a tick touches neither memory nor `DIAG`, a reset
gives the state of `resetInv`, and a load writes a list of bytes. -/
theorem eventsKeepInv : Obligations.EventsKeepInv := by
  intro e s t hs h
  cases e with
  | step keys rnd => exact cycle_inv (s := s.present keys rnd) (hs.congr rfl rfl) h
  | tick =>
    cases h
    exact hs.congr rfl rfl
  | reset =>
    cases h
    exact Inv.congr resetInv rfl rfl
  | loadImage image =>
    rw [loadImage_eq_next h]
    exact ⟨wf_writeList hs.1 _ image, hs.2⟩

/-- Settles O19: the invariant holds at reset and every event of the history keeps it. -/
theorem reachableInv : Obligations.ReachableInv := by
  rintro t ⟨es, h⟩
  exact runEvents_induction (fun e _ u v => eventsKeepInv e u v) resetInv h

/-! ### The values after reset -/

theorem read_reset_font : (List.range 80).map State.reset.mem.read = Claims.glyphTable := by decide

theorem read_reset_zero {a : Nat} (hlo : 0x050 ≤ a) (hhi : a < 4096) : State.reset.mem.read a = 0 := by
  change Memory.read [] a = 0
  rw [read_nil, Nat.mod_eq_of_lt hhi, unlisted_zero a hlo]

theorem v_reset (r : Reg) : State.reset.v r = 0 := Vector.getElem_replicate _

/-- Settles O15: whatever the state before, the event answers `State.reset` but for the model's own queue and count, which are
`env` and read by none of the clauses. -/
theorem resetValues : Obligations.ResetValues := by
  intro s
  refine ⟨resetEvent s, rfl, fun p hp => ?same, v_reset, rfl, rfl, rfl, fun k => Vector.getElem_replicate _, read_reset_font,
    fun a => read_reset_zero, fun p => BitVec.getLsbD_zero, rfl, rfl, rfl⟩
  case same =>
    cases p
    case env => exact absurd rfl hp
    case ports => exact ⟨rfl, rfl⟩
    all_goals rfl

end Sys2Proof.Machine
end

section
/-! Words and blocks of bytes in memory: the placed word and stored registers under the fetch (20_memory.md R42, R55), the round trip
of a block (43_index_memory.md R127), and the image port (20_memory.md R47). -/

namespace Sys2Proof.Machine

/-! ### Words -/

/-- A word that is placed fills its 16 bits. -/
theorem tableWord_toNat (w : Word) : tableWord 16 w.toNat = w := by
  apply BitVec.eq_of_toNat_eq
  rw [tableWord, BitVec.toNat_ofNat]
  omega

theorem onlyChanges_placeWord (s : State) (w : Word) :
    OnlyChanges (fun p => ∃ a : Addr, (a.toNat = s.pc.toNat % 4096 ∨ a.toNat = (s.pc.toNat + 1) % 4096) ∧ p = .byte a) s
      (placeWord s w) := by
  intro p hp
  cases p
  case byte a =>
    have hlt : a.toNat < 4096 := a.isLt
    refine read_write16_other s.mem s.pc.toNat a.toNat w (fun h => hp ⟨a, .inl ?_, rfl⟩) (fun h => hp ⟨a, .inr ?_, rfl⟩)
    · omega
    · omega
  case ports => exact ⟨rfl, rfl⟩
  case env => exact ⟨rfl, rfl⟩
  all_goals rfl

/-- Settles O14: the word is a 2-byte write at `pc`, which a 2-byte read there gives back (`read16_write16_same`). -/
theorem placedWordIsFetched : Obligations.PlacedWordIsFetched := by
  intro s w
  rw [State.withFetchWord, tableWord_toNat]
  exact ⟨read16_write16_same s.mem s.pc.toNat w, onlyChanges_placeWord s w⟩

/-- Settles O46: the two addresses of the fetch are, modulo 4096, those of `V0` and `V1` in the block. -/
theorem storeSeenByFetch : Obligations.StoreSeenByFetch := by
  intro x s hx hpc
  obtain ⟨t, hstore, hread, hframe⟩ := blockStore x s
  have htpc : t.pc = s.pc := hframe .pc (by simp)
  have hhi : t.mem.read s.pc.toNat = s.v 0 := by
    rw [← hread 0 (Nat.zero_le _)]
    refine read_congr _ ?_
    rw [effAddr_eq]
    exact hpc.symm
  have hlo : t.mem.read (s.pc.toNat + 1) = s.v 1 := by
    rw [← hread 1 hx]
    refine read_congr _ ?_
    rw [effAddr_eq, Nat.add_mod, ← hpc, ← Nat.add_mod]
    rfl
  refine ⟨t, hstore, htpc, ?_⟩
  rw [fetchWord, Memory.read16, htpc, hhi, hlo]

/-! ### Blocks -/

theorem effAddr_congr {s t : State} (h : t.i = s.i) (k : Nat) : t.effAddr k = s.effAddr k := by
  rw [effAddr_eq, effAddr_eq, h]

/-- A block that holds the registers' own values already is stored without an effect on any byte. -/
theorem exec_storeRegs_of_loaded {x : Reg} {s t : State} (h : exec (.storeRegs x) s = .next t)
    (hloaded : ∀ k : Reg, k.val ≤ x.val → s.v k = s.mem.read (s.effAddr k.val)) (a : Nat) : t.mem.read a = s.mem.read a := by
  obtain ⟨hread, hframe⟩ := (blockStore x s).of_next h
  refine read_eq_of_same (fun b => ?_) a
  by_cases hb : ∃ k ≤ x.val, b = s.dataAddr k
  · obtain ⟨k, hk, rfl⟩ := hb
    have hkept := (hread ⟨k, by omega⟩ hk).trans (hloaded ⟨k, by omega⟩ hk)
    rw [Same, toNat_dataAddr, read_mod, read_mod]
    exact hkept
  · refine hframe (.byte b) ?_
    rintro ⟨k, hk, hp⟩
    exact hb ⟨k, hk, Part.byte.inj hp⟩

/-- Settles O45: neither instruction moves `I`, so the second finds the block where the first left it. -/
theorem blockRoundTrip : Obligations.BlockRoundTrip := by
  intro x s
  constructor
  · obtain ⟨t, hstore, hread, hframe⟩ := blockStore x s
    have hti : t.i = s.i := hframe .i (by simp)
    refine ⟨t, hstore, fun u humem hui => ?_⟩
    obtain ⟨w, hload, hw, -⟩ := blockLoad x u
    refine ⟨w, hload, fun k hk => ?_⟩
    rw [hw k hk, humem, effAddr_congr (hui.trans hti), hread k hk]
  · obtain ⟨hread, -⟩ := (blockLoad x s).of_next (exec_loadRegs_eq x s)
    refine ⟨_, exec_loadRegs_eq x s, ?_⟩
    obtain ⟨w, hstore⟩ := exec_goesOn (.storeRegs x) (s.loadBlock (x.val + 1) x.isLt)
    refine ⟨w, hstore, fun a => ?_⟩
    have hkept := exec_storeRegs_of_loaded hstore (fun k hk => ?loaded) a
    · rw [hkept, loadBlock_mem]
    case loaded => rw [hread k hk, loadBlock_mem, effAddr_congr (loadBlock_i s _ _)]

/-! ### The image port -/

theorem loadImage_of_fits {image : List Byte} (h : image.length ≤ 3584) (s : State) :
    loadImage image s = .next { s with mem := s.mem.writeList 0x200 image } := by
  have hfits : ¬ image.length + config.loadBase > config.memSize := by
    rw [config_loadBase, config_memSize]
    omega
  rw [loadImage, if_neg hfits, config_loadBase]

theorem loadImage_of_long {image : List Byte} (h : 3584 < image.length) (s : State) :
    loadImage image s = .fault .imageTooLarge := by
  have hlong : image.length + config.loadBase > config.memSize := by
    rw [config_loadBase, config_memSize]
    omega
  rw [loadImage, if_pos hlong]

/-- An image that fits ends at the top of memory at most, so it does not wrap. -/
theorem onlyChanges_image (s : State) (image : List Byte) (h : image.length ≤ 3584) :
    OnlyChanges (fun p => ∃ a : Addr, 0x200 ≤ a.toNat ∧ a.toNat < 0x200 + image.length ∧ p = .byte a) s
      { s with mem := s.mem.writeList 0x200 image } := by
  intro p hp
  cases p
  case byte a =>
    have hlt : a.toNat < 4096 := a.isLt
    refine read_writeList_outside s.mem 0x200 image (by omega) a.toNat fun k hk ha => hp ⟨a, ?_, ?_, rfl⟩
    · omega
    · omega
  case ports => exact ⟨rfl, rfl⟩
  case env => exact ⟨rfl, rfl⟩
  all_goals rfl

/-- Settles O58: the port's test is whether the image ends within the 4096 bytes of memory. -/
theorem loadImagePort : Obligations.LoadImagePort := by
  intro image s
  refine ⟨fun hfits => ⟨_, loadImage_of_fits hfits s, fun k hk => ?bytes, onlyChanges_image s image hfits⟩,
    fun hlong => loadImage_of_long hlong s⟩
  case bytes => exact read_writeList_at s.mem 0x200 image (by omega) k hk

end Sys2Proof.Machine
end

section
/-! The same sprite drawn twice (44_display.md R134, log entry 13). -/

namespace Sys2Proof.Machine

/-- The sprite is a matter of the two coordinate registers, of `I` and of memory. -/
theorem spriteBit_congr {s t : State} {x y : Reg} (hx : t.v x = s.v x) (hy : t.v y = s.v y) (hi : t.i = s.i)
    (hmem : ∀ a, t.mem.read a = s.mem.read a) (n : Nibble) : spriteBit t x y n = spriteBit s x y n := by
  funext px py
  simp only [spriteBit, hx, hy, hmem, effAddr_congr hi]

/-- A draw with both coordinates outside `VF` leaves the sprite as it was. -/
theorem exec_drw_spriteBit {x y : Reg} {n : Nibble} {s t : State} (h : exec (.drw x y n) s = .next t) (hx : x ≠ 15)
    (hy : y ≠ 15) : spriteBit t x y n = spriteBit s x y n := by
  obtain ⟨hmem, -⟩ := storeWriters _ s t h
  obtain ⟨hi, -⟩ := indexTimerWriters _ s t h
  refine spriteBit_congr ?x ?y (hi (by simp) (by simp)) (hmem (by simp)) n
  case x => exact registerWriters _ s t x h rfl fun h15 => absurd h15 hx
  case y => exact registerWriters _ s t y h rfl fun h15 => absurd h15 hy

/-- The flag of a draw, as one equivalence. -/
theorem exec_drw_flag {x y : Reg} {n : Nibble} {s t : State} (h : exec (.drw x y n) s = .next t) :
    t.v 15 = 1 ↔ ∃ px < 64, ∃ py < 32, s.fb.pixel (py * 64 + px) = true ∧ spriteBit s x y n px py = true := by
  obtain ⟨-, hset, hclear, -⟩ := (drawSprite_spec x y n s).of_next h
  refine ⟨fun hflag => by_contra fun hnone => ?_, hset⟩
  have hzero : t.v 15 = 0 := hclear fun px hpx py hpy hp =>
    Bool.eq_false_iff.mpr fun hbit => hnone ⟨px, hpx, py, hpy, hp, hbit⟩
  rw [hzero] at hflag
  exact absurd hflag (by decide)

/-- Settles O51: the second draw XORs the same bits once more, so each pixel is back; and where the sprite has a 1 bit, it finds
the pixel set exactly when it was 0 before both. -/
theorem drawTwice : Obligations.DrawTwice := by
  intro x y n s hx hy
  obtain ⟨t, hdraw, hpix, -⟩ := drawSprite_spec x y n s
  obtain ⟨u, hdraw', hpix', -⟩ := drawSprite_spec x y n t
  have hsame := exec_drw_spriteBit hdraw hx hy
  refine ⟨t, hdraw, u, hdraw', fun p => ?pixels, ?flag⟩
  case pixels =>
    have hcol : p.val % 64 < 64 := Nat.mod_lt _ (by decide)
    have hrow : p.val / 64 < 32 := by omega
    have hrestored := hpix' _ hcol _ hrow
    rw [hsame, hpix _ hcol _ hrow, Bool.bne_assoc, bne_self_eq_false, Bool.bne_false, Nat.div_add_mod'] at hrestored
    exact hrestored
  case flag =>
    have hmet : ∀ px < 64, ∀ py < 32, (t.fb.pixel (py * 64 + px) = true ∧ spriteBit s x y n px py = true) ↔
        (s.fb.pixel (py * 64 + px) = false ∧ spriteBit s x y n px py = true) := by
      intro px hpx py hpy
      refine and_congr_left fun hbit => ?_
      rw [hpix px hpx py hpy, hbit, Bool.bne_true, Bool.not_eq_true']
    rw [exec_drw_flag hdraw', hsame]
    constructor
    · rintro ⟨px, hpx, py, hpy, h⟩
      exact ⟨px, hpx, py, hpy, (hmet px hpx py hpy).mp h⟩
    · rintro ⟨px, hpx, py, hpy, h⟩
      exact ⟨px, hpx, py, hpy, (hmet px hpx py hpy).mpr h⟩

end Sys2Proof.Machine
end

section
/-! Idle states (70_reset_and_hazards.md R191). -/

namespace Sys2Proof.Machine

/-- The 12-bit operand holds the whole of an address up to 0x0FFF. -/
theorem addrWord_setWidth {a : Word} (h : a.toNat ≤ 0x0FFF) : addrWord (a.setWidth 12) = a := by
  apply BitVec.eq_of_toNat_eq
  rw [toNat_addrWord, BitVec.toNat_setWidth]
  omega

/-- In an idle state `Step()` is the jump back to where it was. -/
theorem cycle_of_idle {s : State} (h : Idle s) : cycle s = .next s := by
  obtain ⟨hpc, hdec⟩ := h
  rw [cycle_of_ok hdec]
  change Host.Outcome.next { s with pc := addrWord (s.pc.setWidth 12) } = _
  rw [addrWord_setWidth hpc]

/-- Settles O59: the step event is that jump on the state with its inputs sampled, which is idle as well, since `Idle` is about `pc`
and memory. -/
theorem idleStays : Obligations.IdleStays := by
  intro s keys rnd hidle
  have hpresented : Idle (s.present keys rnd) := hidle
  exact ⟨s.present keys rnd, cycle_of_idle hpresented, onlyChanges_present s keys rnd, hpresented⟩

end Sys2Proof.Machine
end
